-- ==== Sys2Proof/Word.lean ====
section
/-! DEFINITION. The word types of the block and its complex samples (00_scope.md R9, R11; 20_memory.md R40). -/

namespace Sys2Proof

/-- The command word `CW[47:0]` (30_encoding.md R60). -/
abbrev CmdWord := BitVec 48

/-- A sequence of 32 inner code bits, `y_0` at bit 31 (00_scope.md R10). -/
abbrev InnerWord := BitVec 32

/-- A sequence of 64 bits over the PLSC symbols, symbol 0 at bit 63 (00_scope.md R10, 20_memory.md R43). -/
abbrev CodeWord := BitVec 64

/-- A complex sample `I + jQ`: a pair of integers, on which all arithmetic is exact (00_scope.md R11). That a
component fits the `SW` bits of a port is `Sample.fits` (log 4). -/
structure Sample where
  /-- the component `I`. -/
  i : Int
  /-- the component `Q`. -/
  q : Int
deriving DecidableEq, Repr

/-- The decoder window `DIN[0..64]`: exactly 65 samples (00_scope.md R6, 20_memory.md R47). -/
abbrev Window := Vector Sample 65

/-- The encoder's output `DOUT[0..63]`: exactly 64 samples (20_memory.md R40). -/
abbrev Symbols := Vector Sample 64

end Sys2Proof
end

