-- ==== Sys2Proof/Config.lean ====
section
/-! DEFINITION. What is fixed when an instance is built, and the one free value (00_scope.md R5; 10_state.md R25). -/

namespace Sys2Proof

/-- The parameters of an instance (00_scope.md R5). They are fixed when the block is built and no command changes
them (70_reset_and_hazards.md R203). What makes them legal is `Params.legal`. -/
structure Params where
  /-- `SW`, the width in bits of each sample component. -/
  sw : Nat
  /-- `AMP`, the amplitude of the encoder's output symbols. -/
  amp : Nat
  /-- `LAYOUT_ADJ`: the two copies of a code bit stand side by side (true) or in the two halves (false). -/
  layoutAdj : Bool
  /-- `ROT_ALT`: the axis alternates between two directions (true) or turns through four (false). -/
  rotAlt : Bool
  /-- `REF_DIAG`: the reference axis is the diagonal (true) or the real axis (false). -/
  refDiag : Bool
deriving DecidableEq, Repr

/-- The default configuration of 00_scope.md R5: `SW = 16`, `AMP = 16384`, the three Booleans false. -/
def Params.standard : Params :=
  { sw := 16, amp := 16384, layoutAdj := false, rotAlt := false, refDiag := false }

/-- FREE VALUE (10_state.md R25, 93_implementation_defined.md U1): the bits that result port number `port` shows at
draw `draw` while `DEC_VALID = 0`. Nothing constrains it (log 8). -/
opaque Config.freePortBits : (draw : Nat) → (port : Nat) → Nat

end Sys2Proof
end

