-- ==== Sys2Proof/Syntax.lean ====
section
/-! DEFINITION. The six commands (30_encoding.md R62), one constructor for each row of spec/opcode_table.json. Each
operand has the width R63 gives it, so an operand out of range cannot be written. -/

namespace Sys2Proof

/-- A command with its scalar operands (30_encoding.md R62, R63). The sample window is no part of it: it stands at
the port `DIN`. -/
inductive Instr where
  /-- `RM32.ENC`, operand `d = ARG[5:0]` (40_rm_codec.md R95). -/
  | rm32Enc (d : BitVec 6)
  /-- `RM32.DECH`, operand `w = ARG[31:0]` (40_rm_codec.md R96). -/
  | rm32Dech (w : BitVec 32)
  /-- `RM32.DECS`, no scalar operand (40_rm_codec.md R97). -/
  | rm32Decs
  /-- `PLSC.ENC`, operand `p = ARG[6:0]` (41_plsc_encoder.md R118). -/
  | plscEnc (p : BitVec 7)
  /-- `PLSC.ENCP`, operands `modcod = ARG[6:2]`, `short = ARG[1]`, `pilots = ARG[0]` (41_plsc_encoder.md R119). -/
  | plscEncp (modcod : BitVec 5) (short pilots : Bool)
  /-- `PLSC.DEC`, flags `C = CW[43]` (coherent) and `S = CW[42]` (soft) (42_plsc_decoder.md R139). -/
  | plscDec (c s : Bool)
deriving DecidableEq, Repr

end Sys2Proof
end

