-- ==== Sys2Proof/WellFormed.lean ====
section
/-! DEFINITION. What is checked of the operands and of the parameters. The scalar operands of `Instr` are in range by
their types (30_encoding.md R63), so no term of it is ill-formed; the checks are about the samples of the window,
which the model holds as integers (20_memory.md R42), and about the parameters (00_scope.md R5). -/

namespace Sys2Proof

/-- An integer is in the range of an `n`-bit two's complement number, for `n >= 1`. -/
def fitsSigned (n : Nat) (x : Int) : Bool :=
  decide (-(2 : Int) ^ (n - 1) ≤ x) && decide (x < (2 : Int) ^ (n - 1))

/-- Both components of a sample are `sw`-bit two's complement integers (20_memory.md R42). -/
def Sample.fits (sw : Nat) (x : Sample) : Bool :=
  fitsSigned sw x.i && fitsSigned sw x.q

/-- All 65 samples of a window fit the port `DIN` (20_memory.md R42, 93_implementation_defined.md U12). -/
def windowFits (sw : Nat) (w : Window) : Bool :=
  w.toList.all (Sample.fits sw)

/-- All 64 symbols fit the port `DOUT` (20_memory.md R40). -/
def symbolsFit (sw : Nat) (d : Symbols) : Bool :=
  d.toList.all (Sample.fits sw)

/-- The constraints on the parameters: `SW >= 2` and `1 <= AMP <= 2^(SW-1) - 1` (00_scope.md R5). -/
def Params.legal (c : Params) : Bool :=
  decide (2 ≤ c.sw) && decide (1 ≤ c.amp) && decide (c.amp ≤ 2 ^ (c.sw - 1) - 1)

/-- A command is well-formed. Every operand has exactly the width R63 of 30_encoding.md gives it, so the answer is
yes for each constructor; the match names them all so that a new one must be thought of here. -/
def Instr.wellFormed : Instr → Bool
  | .rm32Enc _ => true
  | .rm32Dech _ => true
  | .rm32Decs => true
  | .plscEnc _ => true
  | .plscEncp _ _ _ => true
  | .plscDec _ _ => true

end Sys2Proof
end

