-- ==== Sys2Proof/Machine/State.lean ====
section
/-! DEFINITION. The state of the block, the response of a command, what the host can do, the ways a step can stop, and
the state after reset (10_state.md; 30_encoding.md R65; 70_reset_and_hazards.md R200, R201). -/

namespace Sys2Proof.Machine

/-- The field `STATUS` of a response. Code 3 is never produced (60_exceptions.md R180). -/
inductive Status where
  /-- code 0, the command was performed. -/
  | ok
  /-- code 1, the triple given to `PLSC.ENCP` is not allowed (60_exceptions.md R181). -/
  | invalidCfg
  /-- code 2, the command word is not a legal encoding (60_exceptions.md R182). -/
  | illegalCmd
deriving DecidableEq, Repr

/-- The response to one command (30_encoding.md R65). -/
structure Response where
  /-- `STATUS`. -/
  status : Status
  /-- `RVAL`, the scalar result. -/
  rval : BitVec 32
  /-- `RMET`, the metric, an `SW + 8` bit signed number held as an integer (log 4). -/
  rmet : Int
  /-- `DOUT[0..63]` when the command drives it, `none` when it does not (30_encoding.md R65, log 2). -/
  dout : Option Symbols
deriving DecidableEq, Repr

/-- What the host does to the block's ports, one thing at a time (00_scope.md R7, log 1). -/
inductive HostEvent where
  /-- Present a command word with a window and hold both until the response (30_encoding.md R61). -/
  | command (cw : CmdWord) (din : Window)
  /-- Assert reset (70_reset_and_hazards.md R200). -/
  | reset
  /-- Break 70_reset_and_hazards.md R204: present a command before the response of the one before (log 11). -/
  | commandOverlap
  /-- Break 70_reset_and_hazards.md R204: change the command word or a read entry of `DIN` before the response
  (log 11). -/
  | operandsNotHeld
deriving DecidableEq, Repr

/-- The faults of the block: there are none. Every command that can be presented ends with a response
(60_exceptions.md R180, R185, R191; log 14). -/
inductive Fault where
deriving DecidableEq, Repr

/-- The reasons for which a step has no meaning. -/
inductive Refusal where
  /-- Raised by `exec` for an instruction with no meaning yet (none is left). Safe. -/
  | notModelled (mnemonic : String)
  /-- Raised by a presented command whose window has a component outside the `SW`-bit range, which the hardware's
  port cannot carry (93_implementation_defined.md U12: refuse; log 5). Safe. -/
  | sampleOutOfRange
  /-- Raised by the host event `commandOverlap`, whose hardware outcome is undefined
  (93_implementation_defined.md U2: refuse; log 11). Safe. -/
  | commandOverlap
  /-- Raised by the host event `operandsNotHeld`, whose hardware outcome is undefined
  (93_implementation_defined.md U3: refuse; log 11). Safe. -/
  | operandsNotHeld
deriving DecidableEq, Repr

/-- The state of one instance. The fields `decPlsc` to `soft` are the whole architectural state of 10_state.md R20;
`params` is fixed for the life of the instance; `din`, `host`, `responses` are its ports (log 1, 2, 9); `draws` is
the model's own (log 8). -/
structure State where
  /-- the parameters of the instance (00_scope.md R5, log 3). -/
  params : Params
  /-- `DEC_PLSC` (10_state.md R24). -/
  decPlsc : BitVec 7
  /-- `MODCOD` (10_state.md R24). -/
  modcod : BitVec 5
  /-- `SHORT_FECFRAME` (10_state.md R24). -/
  shortFecframe : Bool
  /-- `HAS_PILOTS` (10_state.md R24). -/
  hasPilots : Bool
  /-- `DUMMY_FRAME` (10_state.md R24). -/
  dummyFrame : Bool
  /-- `N_MOD` (10_state.md R24). -/
  nMod : BitVec 3
  /-- The register `S` (10_state.md R24). -/
  slots : BitVec 9
  /-- `N_PILOTS` (10_state.md R24). -/
  nPilots : BitVec 5
  /-- `PLFRAME_LEN` (10_state.md R24). -/
  plframeLen : BitVec 16
  /-- `DEC_METRIC`, `SW + 8` bits signed, held as an integer (10_state.md R24, R33; log 4). -/
  decMetric : Int
  /-- `DEC_EFF_SOFT` (10_state.md R24). -/
  decEffSoft : Bool
  /-- `DEC_VALID` (10_state.md R25). -/
  decValid : Bool
  /-- `SOFT[0..63]`, entries of `SW + 2` bits signed, held as integers (10_state.md R26, R33; log 4). -/
  soft : Vector Int 64
  /-- the input port `DIN[0..64]` (20_memory.md R40, log 9). -/
  din : Window
  /-- what the host does next, first thing first (70_reset_and_hazards.md R210, log 1). -/
  host : List HostEvent
  /-- the responses given since reset, oldest first (70_reset_and_hazards.md R210, log 2). -/
  responses : List Response
  /-- MODEL'S OWN: how many host events have been taken; the index of the free values (log 8). -/
  draws : Nat
deriving DecidableEq, Repr

/-- A window of 65 zero samples. -/
def zeroWindow : Window := Vector.ofFn fun _ => ⟨0, 0⟩

/-- The machine right after reset (70_reset_and_hazards.md R201) in the default configuration, with nothing presented:
`DEC_VALID = 0`, no response given. The other values are the model's (log 3, 6, 7, 8, 9): the spec leaves the
registers of R24 and `SOFT` unspecified, and no port shows them until the first `PLSC.DEC` (`State.ports`). -/
def State.reset : State where
  params := Params.standard
  decPlsc := 0
  modcod := 0
  shortFecframe := false
  hasPilots := false
  dummyFrame := false
  nMod := 0
  slots := 0
  nPilots := 0
  plframeLen := 0
  decMetric := 0
  decEffSoft := false
  decValid := false
  soft := Vector.ofFn fun _ => 0
  din := zeroWindow
  host := []
  responses := []
  draws := 0

end Sys2Proof.Machine
end

