-- ==== Sys2Proof/Machine/Ops.lean ====
section
/-! DEFINITION. The shared operations: bit sequences in words, sums, selection, complex arithmetic, and the operations
on State that every command goes through (giving a response, raising an error report, taking a command or a reset,
writing the result registers). -/

namespace Sys2Proof.Machine

/-! ## Bit sequences in words -/

/-- `seq64(w, i) = w[63 - i]` for `i` from 0 to 63 (00_scope.md R10). -/
def seq64 (w : CodeWord) (i : Nat) : Bool := w.getMsbD i

/-- `seq32(w, j) = w[31 - j]` for `j` from 0 to 31 (00_scope.md R10). -/
def seq32 (w : InnerWord) (j : Nat) : Bool := w.getMsbD j

/-- The number whose `n` binary digits, most significant first, are `f 0, …, f (n - 1)`. -/
def digitsToNat (f : Nat → Bool) : Nat → Nat
  | 0 => 0
  | n + 1 => 2 * digitsToNat f n + (f n).toNat

/-- The 64-bit word `w` with `seq64(w, i) = f i` (00_scope.md R10). -/
def word64 (f : Nat → Bool) : CodeWord := BitVec.ofNat 64 (digitsToNat f 64)

/-- How many of the low `k` bits of `w` are 1. -/
def popcountBelow {n : Nat} (w : BitVec n) : Nat → Nat
  | 0 => 0
  | k + 1 => popcountBelow w k + (w.getLsbD k).toNat

/-- `popcount(w)`, the number of bits of `w` that are 1 (00_scope.md R9). -/
def popcount {n : Nat} (w : BitVec n) : Nat := popcountBelow w n

/-- `1 - 2·b`: `+1` for bit 0 and `-1` for bit 1 (40_rm_codec.md R85, 41_plsc_encoder.md R114). -/
def bipolar (b : Bool) : Int := if b then -1 else 1

/-- `Σ_{k=0..n-1} f k` (00_scope.md R11: exact integers). -/
def sumTo (f : Nat → Int) : Nat → Int
  | 0 => 0
  | n + 1 => sumTo f n + f n

/-! ## Selection -/

/-- The least of the numbers `0 … n` whose value under `f` no other beats, with that value. `beats a b` says that
value `a` is strictly better than value `b` (00_scope.md R12). -/
def selectLeast (beats : Int → Int → Bool) (f : Nat → Int) : Nat → Nat × Int
  | 0 => (0, f 0)
  | n + 1 =>
    match selectLeast beats f n with
    | (x, v) => if beats (f (n + 1)) v then (n + 1, f (n + 1)) else (x, v)

/-- `argmin_{x in 0..n} f(x)`, the least such `x`, and the minimum (00_scope.md R12). -/
def argminUpTo (n : Nat) (f : Nat → Int) : Nat × Int := selectLeast (fun a b => decide (a < b)) f n

/-- `argmax_{x in 0..n} f(x)`, the least such `x`, and the maximum (00_scope.md R12). -/
def argmaxUpTo (n : Nat) (f : Nat → Int) : Nat × Int := selectLeast (fun a b => decide (b < a)) f n

/-! ## Complex arithmetic -/

/-- Multiplication by `j^k`, `k` taken modulo 4 (00_scope.md R11). -/
def mulJ (k : Int) (x : Sample) : Sample :=
  match (k % 4).toNat with
  | 0 => x
  | 1 => ⟨-x.q, x.i⟩
  | 2 => ⟨-x.i, -x.q⟩
  | _ => ⟨x.q, -x.i⟩

/-- The product of a sample and an integer (00_scope.md R11). -/
def Sample.scale (a : Int) (x : Sample) : Sample := ⟨a * x.i, a * x.q⟩

/-- `conj(I, Q) = (I, -Q)` (00_scope.md R11). -/
def Sample.conj (x : Sample) : Sample := ⟨x.i, -x.q⟩

/-- `(a, b) · (c, d) = (ac - bd, ad + bc)` (00_scope.md R11). -/
def Sample.mul (x y : Sample) : Sample := ⟨x.i * y.i - x.q * y.q, x.i * y.q + x.q * y.i⟩

/-! ## Operations on State -/

/-- Give the response to the command under way (30_encoding.md R65). -/
def respond (r : Response) (s : State) : State := { s with responses := s.responses ++ [r] }

/-- End a command that was performed: `STATUS <- OK` (60_exceptions.md R180), `RVAL`, `RMET`, and `DOUT` if driven. -/
def finish (rval : BitVec 32) (rmet : Int) (dout : Option Symbols) (s : State) : State :=
  respond { status := .ok, rval := rval, rmet := rmet, dout := dout } s

/-- `raise INVALID_CFG` and `raise ILLEGAL_CMD`, the one shared error report: the command ends with that status,
`RVAL = 0`, `RMET = 0`, `DOUT` not driven, and no register written; there is no trap entry and nothing is saved
(00_scope.md R13; 60_exceptions.md R181, R182, R185, R187). The block goes on with the next command, so there is no
return from it either (R186). -/
def raise (st : Status) (s : State) : State :=
  respond { status := st, rval := 0, rmet := 0, dout := none } s

/-- Take a presented command: its window stands at `DIN` and the rest of what the host does remains
(30_encoding.md R61, log 1, 9); the free values move on (log 8). -/
def accept (din : Window) (rest : List HostEvent) (s : State) : State :=
  { s with din := din, host := rest, draws := s.draws + 1 }

/-- Reset (70_reset_and_hazards.md R200, R201): the state of a new instance with the same parameters, before what the
host does next (log 12). -/
def assertReset (rest : List HostEvent) (s : State) : State :=
  { State.reset with params := s.params, host := rest, draws := s.draws + 1 }

/-- `SOFT[i] <- u[i]` for all `i` (10_state.md R26). -/
def writeSoft (u : Nat → Int) (s : State) : State :=
  { s with soft := Vector.ofFn fun i : Fin 64 => u i.val }

/-- Entry `i` of the scratch buffer (10_state.md R26). -/
def softAt (v : Vector Int 64) (i : Nat) : Int := (v[i]?).getD 0

end Sys2Proof.Machine
end

