-- ==== Sys2Proof/Machine/Operands.lean ====
section
/-! DEFINITION. The operands a command takes from the window `DIN` (20_memory.md R40, R41) and the form in which a
scalar result goes to `RVAL` (30_encoding.md R65). The operands in the command word are taken apart in Decode. -/

namespace Sys2Proof.Machine

/-- `DIN[i]` for `i` from 0 to 64 (20_memory.md R40). -/
def dinAt (w : Window) (i : Nat) : Sample := (w[i]?).getD ⟨0, 0⟩

/-- PLSC symbol `i` of the window, `DIN[i + 1]` for `i` from 0 to 63 (20_memory.md R41). -/
def plscSymbol (w : Window) (i : Nat) : Sample := dinAt w (i + 1)

/-- The soft values of `RM32.DECS`: `v[k] = DIN[k].I` for `k` from 0 to 31 (30_encoding.md R63, 40_rm_codec.md R97). -/
def innerSoft (w : Window) (k : Nat) : Int := (dinAt w k).i

/-- `zext_32(v)`, the form of a scalar result in `RVAL` (30_encoding.md R65). -/
def zext32 {n : Nat} (v : BitVec n) : BitVec 32 := v.setWidth 32

end Sys2Proof.Machine
end

