-- ==== Sys2Proof/Machine/Flags.lean ====
section
/-! DEFINITION. Every flag the block computes: the effective mode (42_plsc_decoder.md R130) and the three flags of a
decoded value (43_modcod_params.md R160 to R162). -/

namespace Sys2Proof.Machine

/-- `eff_coherent = C` (42_plsc_decoder.md R130). -/
def effCoherent (c _s : Bool) : Bool := c

/-- `eff_soft = C and S` (42_plsc_decoder.md R130): the value of `DEC_EFF_SOFT`. -/
def effSoft (c s : Bool) : Bool := c && s

/-- `modcod = p[6:2]` (43_modcod_params.md R160). -/
def modcodOf (p : BitVec 7) : BitVec 5 := p.extractLsb' 2 5

/-- `short = p[1]` (43_modcod_params.md R160): the value of `SHORT_FECFRAME`. -/
def shortOf (p : BitVec 7) : Bool := p.getLsbD 1

/-- `dummy = [modcod = 0]` (43_modcod_params.md R161): the value of `DUMMY_FRAME`. -/
def dummyOf (p : BitVec 7) : Bool := modcodOf p == 0#5

/-- `pilots = p[0] and not dummy` (43_modcod_params.md R162): the value of `HAS_PILOTS`. -/
def pilotsOf (p : BitVec 7) : Bool := p.getLsbD 0 && !dummyOf p

end Sys2Proof.Machine
end

