-- ==== Sys2Proof/Machine/RmCodec.lean ====
section
/-! DEFINITION. The Reed-Muller-type block codec and the commands `RM32.ENC`, `RM32.DECH`, `RM32.DECS`
(40_rm_codec.md). -/

namespace Sys2Proof.Machine

/-! ## The inner code -/

/-- Row `r` of the generator matrix `G` (40_rm_codec.md R80). -/
def genRow : Nat → InnerWord
  | 0 => 0x55555555#32
  | 1 => 0x33333333#32
  | 2 => 0x0F0F0F0F#32
  | 3 => 0x00FF00FF#32
  | 4 => 0x0000FFFF#32
  | _ => 0xFFFFFFFF#32

/-- `(b ? w : 0)` (00_scope.md R9). -/
def gate (b : Bool) (w : InnerWord) : InnerWord := if b then w else 0#32

/-- `enc32(d)` (40_rm_codec.md R81). -/
def enc32 (d : BitVec 6) : InnerWord :=
  gate (d.getLsbD 5) (genRow 0) ^^^ gate (d.getLsbD 4) (genRow 1) ^^^ gate (d.getLsbD 3) (genRow 2)
    ^^^ gate (d.getLsbD 2) (genRow 3) ^^^ gate (d.getLsbD 1) (genRow 4) ^^^ gate (d.getLsbD 0) (genRow 5)

/-- `dist32(w, d)` (40_rm_codec.md R84). -/
def dist32 (w : InnerWord) (d : BitVec 6) : Nat := popcount (w ^^^ enc32 d)

/-- `dech32(w)`: the least dataword at least distance, and that distance (40_rm_codec.md R84). -/
def dech32 (w : InnerWord) : BitVec 6 × Int :=
  let best := argminUpTo 63 fun d => (dist32 w (BitVec.ofNat 6 d) : Int)
  (BitVec.ofNat 6 best.1, best.2)

/-- `corr32(v, d)` (40_rm_codec.md R85). -/
def corr32 (v : Nat → Int) (d : BitVec 6) : Int := sumTo (fun j => bipolar (seq32 (enc32 d) j) * v j) 32

/-- `decs32(v)`: the least dataword of greatest correlation, and that correlation (40_rm_codec.md R85). -/
def decs32 (v : Nat → Int) : BitVec 6 × Int :=
  let best := argmaxUpTo 63 fun d => corr32 v (BitVec.ofNat 6 d)
  (BitVec.ofNat 6 best.1, best.2)

/-! ## The (64,7) code -/

/-- `pos(j, k)`: the sequence position of copy `k` of inner code bit `j` (40_rm_codec.md R87). -/
def pos (adj : Bool) (j k : Nat) : Nat := if adj then 2 * j + k else j + 32 * k

/-- The inner code bit that stands at sequence position `i`: the `j` of `pos(j, k) = i` (40_rm_codec.md R87). -/
def posBit (adj : Bool) (i : Nat) : Nat := if adj then i / 2 else i % 32

/-- The copy that stands at sequence position `i`: the `k` of `pos(j, k) = i` (40_rm_codec.md R87). -/
def posCopy (adj : Bool) (i : Nat) : Nat := if adj then i % 2 else i / 32

/-- The dataword `d = p[6:1]` (40_rm_codec.md R88). -/
def datawordOf (p : BitVec 7) : BitVec 6 := p.extractLsb' 1 6

/-- The external bit `x = p[0]` (40_rm_codec.md R88). -/
def externalOf (p : BitVec 7) : Bool := p.getLsbD 0

/-- `enc64(p)`: the first copy of each inner code bit as it is, the second inverted when the external bit is 1
(40_rm_codec.md R88). -/
def enc64 (adj : Bool) (p : BitVec 7) : CodeWord :=
  word64 fun i => seq32 (enc32 (datawordOf p)) (posBit adj i) ^^ (decide (posCopy adj i = 1) && externalOf p)

/-- `dist64(r, p)` (40_rm_codec.md R90). -/
def dist64 (adj : Bool) (r : CodeWord) (p : BitVec 7) : Nat := popcount (r ^^^ enc64 adj p)

/-- `dech64(r)`: the least value at least distance, and that distance (40_rm_codec.md R90). -/
def dech64 (adj : Bool) (r : CodeWord) : BitVec 7 × Int :=
  let best := argminUpTo 127 fun p => (dist64 adj r (BitVec.ofNat 7 p) : Int)
  (BitVec.ofNat 7 best.1, best.2)

/-- `corr64(v, p)` (40_rm_codec.md R91). -/
def corr64 (adj : Bool) (v : Nat → Int) (p : BitVec 7) : Int :=
  sumTo (fun i => bipolar (seq64 (enc64 adj p) i) * v i) 64

/-- `decs64(v)`: the least value of greatest correlation, and that correlation (40_rm_codec.md R91). -/
def decs64 (adj : Bool) (v : Nat → Int) : BitVec 7 × Int :=
  let best := argmaxUpTo 127 fun p => corr64 adj v (BitVec.ofNat 7 p)
  (BitVec.ofNat 7 best.1, best.2)

/-! ## The commands -/

/-- `RM32.ENC` (40_rm_codec.md R95). -/
def execRm32Enc (d : BitVec 6) (s : State) : Host.Outcome State Fault Refusal :=
  .next (finish (enc32 d) 0 none s)

/-- `RM32.DECH` (40_rm_codec.md R96). -/
def execRm32Dech (w : BitVec 32) (s : State) : Host.Outcome State Fault Refusal :=
  .next (finish (zext32 (dech32 w).1) (dech32 w).2 none s)

/-- `RM32.DECS` (40_rm_codec.md R97). -/
def execRm32Decs (s : State) : Host.Outcome State Fault Refusal :=
  .next (finish (zext32 (decs32 (innerSoft s.din)).1) (decs32 (innerSoft s.din)).2 none s)

end Sys2Proof.Machine
end

