-- ==== Sys2Proof/Machine/Encoder.lean ====
section
/-! DEFINITION. The PLSC encoder: scrambler, π/2-BPSK mapper, parameter check, and the commands `PLSC.ENC` and
`PLSC.ENCP` (41_plsc_encoder.md). -/

namespace Sys2Proof.Machine

/-- The scrambler constant `SCR` (41_plsc_encoder.md R110). -/
def SCR : CodeWord := 0x719D83C953422DFA#64

/-- `scramble(c) = c ⊕ SCR` (41_plsc_encoder.md R111). -/
def scramble (c : CodeWord) : CodeWord := c ^^^ SCR

/-- `rho(i)`, the quarter turns of the axis of symbol `i`, for any integer `i` (41_plsc_encoder.md R112). -/
def rho (c : Params) (i : Int) : Int := if c.rotAlt then i % 2 else i % 4

/-- The reference vector `U` (41_plsc_encoder.md R113). -/
def refVector (c : Params) : Sample := if c.refDiag then ⟨c.amp, c.amp⟩ else ⟨c.amp, 0⟩

/-- `mapsym(b, i) = (1 - 2·b) · j^rho(i) · U` (41_plsc_encoder.md R114). -/
def mapsym (c : Params) (b : Bool) (i : Int) : Sample :=
  Sample.scale (bipolar b) (mulJ (rho c i) (refVector c))

/-- `sof_ref = mapsym(0, -1)`, the last start-of-frame symbol (41_plsc_encoder.md R115). No command drives it. -/
def sofRef (c : Params) : Sample := mapsym c false (-1)

/-- The 64 symbols of a scrambled sequence `b` (41_plsc_encoder.md R118). -/
def mapWord (c : Params) (b : CodeWord) : Symbols :=
  Vector.ofFn fun i : Fin 64 => mapsym c (seq64 b i.val) (i.val : Int)

/-- `plsc_pack(modcod, short, pilots) = modcod ‖ short ‖ pilots` (41_plsc_encoder.md R116). -/
def plscPack (modcod : BitVec 5) (short pilots : Bool) : BitVec 7 :=
  modcod ++ BitVec.ofBool short ++ BitVec.ofBool pilots

/-- `cfg_invalid(modcod, short, pilots)` (41_plsc_encoder.md R117): `modcod` is reserved, or the frame is short and
the code rate of `modcod` has no short FECFRAME. -/
def cfgInvalid (modcod : BitVec 5) (short _pilots : Bool) : Bool :=
  decide (29 ≤ modcod.toNat) ||
    (short && (modcod.toNat == 11 || modcod.toNat == 17 || modcod.toNat == 23 || modcod.toNat == 28))

/-- Encode, scramble and map a PLSC value, and answer it: what `PLSC.ENC` does and what `PLSC.ENCP` does once its
triple is accepted (41_plsc_encoder.md R118). -/
def encodePlsc (p : BitVec 7) (s : State) : State :=
  finish (zext32 p) 0 (some (mapWord s.params (scramble (enc64 s.params.layoutAdj p)))) s

/-- `PLSC.ENC` (41_plsc_encoder.md R118). -/
def execPlscEnc (p : BitVec 7) (s : State) : Host.Outcome State Fault Refusal :=
  .next (encodePlsc p s)

/-- `PLSC.ENCP` (41_plsc_encoder.md R119). -/
def execPlscEncp (modcod : BitVec 5) (short pilots : Bool) (s : State) : Host.Outcome State Fault Refusal :=
  if cfgInvalid modcod short pilots then .next (raise .invalidCfg s)
  else .next (encodePlsc (plscPack modcod short pilots) s)

end Sys2Proof.Machine
end

