-- ==== Sys2Proof/Machine/Derive.lean ====
section
/-! DEFINITION. The derivation of the transmission parameters from a decoded value, and the write of the result
registers (43_modcod_params.md; 10_state.md R24). -/

namespace Sys2Proof.Machine

/-- `SLOT`: symbols per payload slot (00_scope.md R6). -/
def SLOT : Nat := 90
/-- `FEC_NORMAL` in bits (00_scope.md R6). -/
def FEC_NORMAL : Nat := 64800
/-- `FEC_SHORT` in bits (00_scope.md R6). -/
def FEC_SHORT : Nat := 16200
/-- `HDR_LEN` (00_scope.md R6, 43_modcod_params.md R166). -/
def HDR_LEN : Nat := 90
/-- `PILOT_PERIOD` (00_scope.md R6, 43_modcod_params.md R165). -/
def PILOT_PERIOD : Nat := 16
/-- `PILOT_LEN` (00_scope.md R6, 43_modcod_params.md R166). -/
def PILOT_LEN : Nat := 36
/-- `DUMMY_SLOTS` (00_scope.md R6, 43_modcod_params.md R164). -/
def DUMMY_SLOTS : Nat := 36

/-- `n_mod`, bits per payload symbol (43_modcod_params.md R163). -/
def nModOf (p : BitVec 7) : Nat :=
  let m := (modcodOf p).toNat
  if m = 0 then 0 else if m ≤ 11 then 2 else if m ≤ 17 then 3 else if m ≤ 23 then 4 else if m ≤ 28 then 5 else 0

/-- `S`, the number of payload slots (43_modcod_params.md R164). -/
def slotsOf (p : BitVec 7) : Nat :=
  if dummyOf p then DUMMY_SLOTS
  else if nModOf p = 0 then 0
  else (if shortOf p then FEC_SHORT else FEC_NORMAL) / (nModOf p * SLOT)

/-- `n_pilots`, the number of pilot blocks (43_modcod_params.md R165). -/
def nPilotsOf (p : BitVec 7) : Nat :=
  if pilotsOf p && decide (1 ≤ slotsOf p) then (slotsOf p - 1) / PILOT_PERIOD else 0

/-- `plframe_len`, the frame length in symbols (43_modcod_params.md R166). -/
def plframeLenOf (p : BitVec 7) : Nat := HDR_LEN + SLOT * slotsOf p + PILOT_LEN * nPilotsOf p

/-- The record that `derive` returns (43_modcod_params.md R169). -/
structure Derived where
  /-- `modcod`. -/
  modcod : BitVec 5
  /-- `short`. -/
  short : Bool
  /-- `pilots`. -/
  pilots : Bool
  /-- `dummy`. -/
  dummy : Bool
  /-- `n_mod`. -/
  nMod : Nat
  /-- `S`. -/
  slots : Nat
  /-- `n_pilots`. -/
  nPilots : Nat
  /-- `plframe_len`. -/
  plframeLen : Nat
deriving DecidableEq, Repr

/-- `derive(p)` (43_modcod_params.md R169). -/
def deriveParams (p : BitVec 7) : Derived where
  modcod := modcodOf p
  short := shortOf p
  pilots := pilotsOf p
  dummy := dummyOf p
  nMod := nModOf p
  slots := slotsOf p
  nPilots := nPilotsOf p
  plframeLen := plframeLenOf p

/-- The register writes of `PLSC.DEC`, all together: the decoded value, its derived parameters, the metric, the mode,
and `DEC_VALID <- 1` (42_plsc_decoder.md R139, 10_state.md R24, R25, R31). -/
def writeResults (p : BitVec 7) (m : Int) (soft : Bool) (s : State) : State :=
  let f := deriveParams p
  { s with
    decPlsc := p
    modcod := f.modcod
    shortFecframe := f.short
    hasPilots := f.pilots
    dummyFrame := f.dummy
    nMod := BitVec.ofNat 3 f.nMod
    slots := BitVec.ofNat 9 f.slots
    nPilots := BitVec.ofNat 5 f.nPilots
    plframeLen := BitVec.ofNat 16 f.plframeLen
    decMetric := m
    decEffSoft := soft
    decValid := true }

end Sys2Proof.Machine
end

