-- ==== Sys2Proof/Machine/Decoder.lean ====
section
/-! DEFINITION. The PLSC decoder: demapping, descrambling, block decode, and the command `PLSC.DEC`
(42_plsc_decoder.md). -/

namespace Sys2Proof.Machine

/-- `demap_coh(DIN)[i]`, the soft value of PLSC symbol `i` (42_plsc_decoder.md R131). -/
def demapCoh (c : Params) (w : Window) (i : Nat) : Int :=
  let t := mulJ (-rho c (i : Int)) (plscSymbol w i)
  if c.refDiag then t.i + t.q else t.i

/-- `hbit(v)` (42_plsc_decoder.md R132). -/
def hbit (v : Int) : Bool := decide (v < 0)

/-- `Im(DIN[i+1] · conj(DIN[i]))` (42_plsc_decoder.md R133). -/
def diffIm (w : Window) (i : Nat) : Int := (Sample.mul (dinAt w (i + 1)) (Sample.conj (dinAt w i))).q

/-- `e` of 42_plsc_decoder.md R133: whether symbol `i` and the one before it carry different bits. -/
def diffChange (c : Params) (w : Window) (i : Nat) : Bool :=
  decide (diffIm w i < 0) ^^ (c.rotAlt && decide (i % 2 = 0))

/-- `cur` of 42_plsc_decoder.md R133: the bit of PLSC symbol `i`, accumulated from the bit 0 of the last
start-of-frame symbol. -/
def diffBit (c : Params) (w : Window) : Nat → Bool
  | 0 => diffChange c w 0 ^^ false
  | i + 1 => diffChange c w (i + 1) ^^ diffBit c w i

/-- `demap_diff(DIN)` (42_plsc_decoder.md R133). -/
def demapDiff (c : Params) (w : Window) : CodeWord := word64 (diffBit c w)

/-- `descr_hard(r) = r ⊕ SCR` (42_plsc_decoder.md R135). -/
def descrHard (r : CodeWord) : CodeWord := scramble r

/-- `descr_soft(v)[i]` (42_plsc_decoder.md R136). -/
def descrSoft (v : Nat → Int) (i : Nat) : Int := if seq64 SCR i then -v i else v i

/-- Write the result registers and answer: the end of every `PLSC.DEC` (42_plsc_decoder.md R139). -/
def finishDecode (p : BitVec 7) (m : Int) (soft : Bool) (s : State) : State :=
  finish (zext32 p) m none (writeResults p m soft s)

/-- Decode a hard word before descrambling: both hard modes (42_plsc_decoder.md R138, R139). -/
def decodeHardWord (r : CodeWord) (s : State) : State :=
  finishDecode (dech64 s.params.layoutAdj (descrHard r)).1 (dech64 s.params.layoutAdj (descrHard r)).2 false s

/-- Decode from the scratch buffer: the soft mode once `SOFT` is written (42_plsc_decoder.md R138, R139). -/
def decodeSoftBuffer (s : State) : State :=
  finishDecode (decs64 s.params.layoutAdj (softAt s.soft)).1 (decs64 s.params.layoutAdj (softAt s.soft)).2 true s

/-- `PLSC.DEC` (42_plsc_decoder.md R139). -/
def execPlscDec (c sft : Bool) (s : State) : Host.Outcome State Fault Refusal :=
  if effCoherent c sft then
    if effSoft c sft then
      .next (decodeSoftBuffer (writeSoft (descrSoft (demapCoh s.params s.din)) s))
    else
      .next (decodeHardWord (word64 fun i => hbit (demapCoh s.params s.din i)) s)
  else
    .next (decodeHardWord (demapDiff s.params s.din) s)

end Sys2Proof.Machine
end

