-- ==== Sys2Proof/Machine/Ports.lean ====
section
/-! DEFINITION. What the host sees between commands: the read-only result ports (10_state.md R25, R32) and the
response port (30_encoding.md R65). Both are functions of the state: reading has no side effect (20_memory.md R48). -/

namespace Sys2Proof.Machine

/-- The values at the twelve read-only ports (10_state.md R32). -/
structure ResultPorts where
  /-- port `DEC_PLSC`. -/
  decPlsc : BitVec 7
  /-- port `MODCOD`. -/
  modcod : BitVec 5
  /-- port `SHORT_FECFRAME`. -/
  shortFecframe : Bool
  /-- port `HAS_PILOTS`. -/
  hasPilots : Bool
  /-- port `DUMMY_FRAME`. -/
  dummyFrame : Bool
  /-- port `N_MOD`. -/
  nMod : BitVec 3
  /-- port `S`. -/
  slots : BitVec 9
  /-- port `N_PILOTS`. -/
  nPilots : BitVec 5
  /-- port `PLFRAME_LEN`. -/
  plframeLen : BitVec 16
  /-- port `DEC_METRIC`. -/
  decMetric : Int
  /-- port `DEC_EFF_SOFT`. -/
  decEffSoft : Bool
  /-- port `DEC_VALID`. -/
  decValid : Bool
deriving DecidableEq, Repr

/-- The ports while `DEC_VALID = 0`: unspecified bits, each a free value cut to the width of its port
(10_state.md R25, 93_implementation_defined.md U1; log 8). -/
def freePorts (c : Params) (draw : Nat) : ResultPorts where
  decPlsc := BitVec.ofNat 7 (Config.freePortBits draw 0)
  modcod := BitVec.ofNat 5 (Config.freePortBits draw 1)
  shortFecframe := (Config.freePortBits draw 2).testBit 0
  hasPilots := (Config.freePortBits draw 3).testBit 0
  dummyFrame := (Config.freePortBits draw 4).testBit 0
  nMod := BitVec.ofNat 3 (Config.freePortBits draw 5)
  slots := BitVec.ofNat 9 (Config.freePortBits draw 6)
  nPilots := BitVec.ofNat 5 (Config.freePortBits draw 7)
  plframeLen := BitVec.ofNat 16 (Config.freePortBits draw 8)
  decMetric := (BitVec.ofNat (c.sw + 8) (Config.freePortBits draw 9)).toInt
  decEffSoft := (Config.freePortBits draw 10).testBit 0
  decValid := false

/-- What the host reads at the result ports between commands (10_state.md R25, R32; 70_reset_and_hazards.md R205). -/
def State.ports (s : State) : ResultPorts :=
  if s.decValid then
    { decPlsc := s.decPlsc, modcod := s.modcod, shortFecframe := s.shortFecframe, hasPilots := s.hasPilots,
      dummyFrame := s.dummyFrame, nMod := s.nMod, slots := s.slots, nPilots := s.nPilots,
      plframeLen := s.plframeLen, decMetric := s.decMetric, decEffSoft := s.decEffSoft, decValid := true }
  else freePorts s.params s.draws

/-- What stands at the response port between commands: nothing until the first command after reset completes
(70_reset_and_hazards.md R201), then the last response. -/
def State.responsePort (s : State) : Option Response := s.responses.getLast?

/-- The two-bit code of a status (60_exceptions.md R180). -/
def Status.code : Status → BitVec 2
  | .ok => 0#2
  | .invalidCfg => 1#2
  | .illegalCmd => 2#2

end Sys2Proof.Machine
end

