-- ==== Sys2Proof/Decode.lean ====
section
/-! DEFINITION. The decoder of a command word, total, rejecting by name, and the encoder (30_encoding.md R60 to R64,
R68). -/

namespace Sys2Proof

/-- Why a command word is illegal (30_encoding.md R64). All four end in the same status `ILLEGAL_CMD`. -/
inductive IllegalWord where
  /-- `OP` is `0x0` or `0x7` to `0xF`. -/
  | reservedOpcode
  /-- `RSV` is not 0. -/
  | reservedField
  /-- `C` or `S` is 1 in a command other than `PLSC.DEC`. -/
  | flagOutsideDec
  /-- A bit of `ARG` that the command does not use is 1. -/
  | unusedArgBit
deriving DecidableEq, Repr

/-- `OP = CW[47:44]` (30_encoding.md R60). -/
def cwOp (cw : CmdWord) : BitVec 4 := cw.extractLsb' 44 4

/-- `C = CW[43]` (30_encoding.md R60). -/
def cwC (cw : CmdWord) : Bool := cw.getLsbD 43

/-- `S = CW[42]` (30_encoding.md R60). -/
def cwS (cw : CmdWord) : Bool := cw.getLsbD 42

/-- `RSV = CW[41:32]` (30_encoding.md R60). -/
def cwRsv (cw : CmdWord) : BitVec 10 := cw.extractLsb' 32 10

/-- `ARG = CW[31:0]` (30_encoding.md R60). -/
def cwArg (cw : CmdWord) : BitVec 32 := cw.extractLsb' 0 32

/-- The must-be-zero checks of 30_encoding.md R64 for a word whose opcode names the command `i`, which uses the
low `argBits` bits of `ARG` (R63) and, when `flags` is true, the bits `C` and `S`. -/
def checkFields (cw : CmdWord) (flags : Bool) (argBits : Nat) (i : Instr) : Except IllegalWord Instr :=
  if cwRsv cw ≠ 0#10 then .error .reservedField
  else if !flags && (cwC cw || cwS cw) then .error .flagOutsideDec
  else if cwArg cw >>> argBits ≠ 0#32 then .error .unusedArgBit
  else .ok i

/-- The decoder: the opcode map of 30_encoding.md R62, the operands of R63, the illegal words of R64. -/
def decode (cw : CmdWord) : Except IllegalWord Instr :=
  match (cwOp cw).toNat with
  | 1 => checkFields cw false 6 (.rm32Enc ((cwArg cw).extractLsb' 0 6))
  | 2 => checkFields cw false 32 (.rm32Dech (cwArg cw))
  | 3 => checkFields cw false 0 .rm32Decs
  | 4 => checkFields cw false 7 (.plscEnc ((cwArg cw).extractLsb' 0 7))
  | 5 => checkFields cw false 7
      (.plscEncp ((cwArg cw).extractLsb' 2 5) ((cwArg cw).getLsbD 1) ((cwArg cw).getLsbD 0))
  | 6 => checkFields cw true 0 (.plscDec (cwC cw) (cwS cw))
  | _ => .error .reservedOpcode

/-- The instruction the decoder reads from a table row's bits `w`: there is one word of 48 bits, numbered as the
table numbers it (30_encoding.md R60); the bits above `nbits` are 0. -/
def decodeTableWord (nbits w : Nat) : Option Instr :=
  let v := w % 2 ^ nbits
  if v < 2 ^ 48 then
    match decode (BitVec.ofNat 48 v) with
    | .ok i => some i
    | .error _ => none
  else none

/-! ## The encoder -/

/-- A command word from its five fields, the field `RSV` being 0 (30_encoding.md R60). -/
def mkWord (op : BitVec 4) (c s : Bool) (arg : BitVec 32) : CmdWord :=
  op ++ BitVec.ofBool c ++ BitVec.ofBool s ++ 0#10 ++ arg

/-- The word of a command, from the table of 30_encoding.md R62 and the operand places of R63. -/
def encode : Instr → CmdWord
  | .rm32Enc d => mkWord 0x1#4 false false (d.setWidth 32)
  | .rm32Dech w => mkWord 0x2#4 false false w
  | .rm32Decs => mkWord 0x3#4 false false 0#32
  | .plscEnc p => mkWord 0x4#4 false false (p.setWidth 32)
  | .plscEncp modcod short pilots =>
      mkWord 0x5#4 false false (0#25 ++ modcod ++ BitVec.ofBool short ++ BitVec.ofBool pilots)
  | .plscDec c s => mkWord 0x6#4 c s 0#32

end Sys2Proof
end

