-- ==== Sys2Proof/Machine/Dispatch.lean ====
section
/-! DEFINITION. The meaning of each command, one arm per constructor of `Instr` (30_encoding.md R62). -/

namespace Sys2Proof.Machine

def exec (i : Instr) (s : State) : Host.Outcome State Fault Refusal :=
  match i with
  | .rm32Enc d => Sys2Proof.Machine.execRm32Enc d s
  | .rm32Dech w => Sys2Proof.Machine.execRm32Dech w s
  | .rm32Decs => Sys2Proof.Machine.execRm32Decs s
  | .plscEnc p => Sys2Proof.Machine.execPlscEnc p s
  | .plscEncp modcod short pilots => Sys2Proof.Machine.execPlscEncp modcod short pilots s
  | .plscDec c sft => Sys2Proof.Machine.execPlscDec c sft s

end Sys2Proof.Machine
end

