-- ==== Sys2Proof/Machine/Present.lean ====
section
/-! DEFINITION. What the block does with one thing the host does (30_encoding.md R61; 60_exceptions.md R183). -/

namespace Sys2Proof.Machine

/-- Perform a command word on a state whose `DIN` holds its window: the legality of the word is tested first, before
anything is written (30_encoding.md R64; 60_exceptions.md R182, R183). -/
def performWord (cw : CmdWord) (s : State) : Host.Outcome State Fault Refusal :=
  match decode cw with
  | .ok i => exec i s
  | .error _ => .next (raise .illegalCmd s)

/-- A presented command. A window with a component that the `SW`-bit port cannot carry is refused by name
(93_implementation_defined.md U12; log 5). -/
def presentCommand (cw : CmdWord) (din : Window) (rest : List HostEvent) (s : State) :
    Host.Outcome State Fault Refusal :=
  if windowFits s.params.sw din then performWord cw (accept din rest s) else .refused .sampleOutOfRange

/-- What the block does with the host's next event `e`, `rest` being what the host does after it
(30_encoding.md R61; 70_reset_and_hazards.md R200, R204; log 1, 11, 12). -/
def takeEvent (e : HostEvent) (rest : List HostEvent) (s : State) : Host.Outcome State Fault Refusal :=
  match e with
  | .command cw din => presentCommand cw din rest s
  | .reset => .next (assertReset rest s)
  | .commandOverlap => .refused .commandOverlap
  | .operandsNotHeld => .refused .operandsNotHeld

/-- When the host does nothing the block does nothing and its state does not change (30_encoding.md R61; log 10). -/
def idle (s : State) : Host.Outcome State Fault Refusal := .next s

/-- The word at the head of what the host does, with a window of zeros: how the host presents one command
(30_encoding.md R61; log 1). -/
def placeCommand (cw : CmdWord) (s : State) : State :=
  { s with host := .command cw zeroWindow :: s.host }

end Sys2Proof.Machine
end

