-- ==== Sys2Proof/Machine/Step.lean ====
section
/-! DEFINITION. One step of the block: the host's next event, or nothing (00_scope.md R7, 30_encoding.md R61). -/

namespace Sys2Proof.Machine

/-- One step (00_scope.md R7: one command is one indivisible step). -/
def step (s : State) : Host.Outcome State Fault Refusal :=
  match s.host with
  | [] => idle s
  | e :: rest => takeEvent e rest s

/-- `s` with the command word of a table row's bits `w` as the next thing the host presents. The block fetches
nothing (10_state.md R22): its commands come from the host (log 1). -/
def State.withFetchWord (s : State) (nbits w : Nat) : State :=
  placeCommand (BitVec.ofNat 48 (w % 2 ^ nbits)) s

end Sys2Proof.Machine
end

