-- ==== Sys2Proof/Safety.lean ====
section
/-! DEFINITION. What counts as a safe run: the invariant of the state, and the contract of the host
(10_state.md R33; 70_reset_and_hazards.md R209). -/

namespace Sys2Proof.Machine

/-- The magnitude of an integer is at most `2^n`. -/
def within (n : Nat) (x : Int) : Bool := decide (-(2 : Int) ^ n ≤ x) && decide (x ≤ (2 : Int) ^ n)

/-- The legal values of `DEC_METRIC`: 0 to 64 in a hard mode, `-2^(SW+6)` to `2^(SW+6)` in the soft mode
(10_state.md R24). -/
def metricLegal (c : Params) (soft : Bool) (m : Int) : Bool :=
  if soft then within (c.sw + 6) m else decide (0 ≤ m) && decide (m ≤ 64)

/-- The result registers hold the derivation of `DEC_PLSC`, and a legal metric (43_modcod_params.md R169,
10_state.md R24). -/
def State.resultsLegal (s : State) : Bool :=
  let f := deriveParams s.decPlsc
  s.modcod == f.modcod && s.shortFecframe == f.short && s.hasPilots == f.pilots && s.dummyFrame == f.dummy
    && s.nMod.toNat == f.nMod && s.slots.toNat == f.slots && s.nPilots.toNat == f.nPilots
    && s.plframeLen.toNat == f.plframeLen && metricLegal s.params s.decEffSoft s.decMetric

/-- Every entry of `SOFT` lies in `-2^SW` to `2^SW` (10_state.md R33). -/
def State.softLegal (s : State) : Bool := s.soft.toList.all (within s.params.sw)

/-- A response the block can give: an error report carries nothing; an `OK` response carries a metric of at most
`2^(SW+6)` in magnitude, and symbols that fit the port `DOUT` (30_encoding.md R65, 10_state.md R33;
60_exceptions.md R187). -/
def Response.legal (c : Params) (r : Response) : Bool :=
  match r.status with
  | .ok => within (c.sw + 6) r.rmet &&
      (match r.dout with
       | none => true
       | some d => symbolsFit c.sw d)
  | _ => r.rval == 0#32 && r.rmet == 0 && r.dout == none

/-- The invariant of the block: legal parameters; a window at `DIN` and soft values within their widths; result
registers that agree with one another once they mean something; legal responses. -/
def State.inv (s : State) : Bool :=
  s.params.legal && windowFits s.params.sw s.din && s.softLegal && (!s.decValid || s.resultsLegal)
    && s.responses.all (Response.legal s.params)

/-- The host keeps its contract in this event: the command it presents has a window inside the `SW`-bit range, and
it breaks neither clause of 70_reset_and_hazards.md R204 (R209). -/
def HostEvent.keepsContract (c : Params) : HostEvent → Bool
  | .command _ din => windowFits c.sw din
  | .reset => true
  | .commandOverlap => false
  | .operandsNotHeld => false

/-- The host keeps its contract in all it still does (70_reset_and_hazards.md R209). -/
def State.hostKeepsContract (s : State) : Bool := s.host.all (HostEvent.keepsContract s.params)

/-- A safe state: no number of steps from it ends in a fault or a refusal. -/
def State.Safe (s : State) : Prop := ∀ k, ∃ t, Host.Core.run Sys2Proof.core k s = .next t

end Sys2Proof.Machine
end

