-- ==== Sys2Proof/Certificates/Slice0/Obligations.lean ====
section
/-! DEFINITION. The statements for the provers. The tables of the spec that a statement needs are written out again
here, apart from the model's own formulas. -/

open Sys2Proof Sys2Proof.Machine

namespace Sys2Proof.Machine

/-- The table of 41_plsc_encoder.md R114, written out, for any integer position. -/
def symbolByTable (c : Params) (b : Bool) (i : Int) : Sample :=
  let A : Int := c.amp
  match c.refDiag, (if c.rotAlt then i % 2 else i % 4).toNat, b with
  | false, 0, false => ⟨A, 0⟩
  | false, 0, true => ⟨-A, 0⟩
  | false, 1, false => ⟨0, A⟩
  | false, 1, true => ⟨0, -A⟩
  | false, 2, false => ⟨-A, 0⟩
  | false, 2, true => ⟨A, 0⟩
  | false, _, false => ⟨0, -A⟩
  | false, _, true => ⟨0, A⟩
  | true, 0, false => ⟨A, A⟩
  | true, 0, true => ⟨-A, -A⟩
  | true, 1, false => ⟨-A, A⟩
  | true, 1, true => ⟨A, -A⟩
  | true, 2, false => ⟨-A, -A⟩
  | true, 2, true => ⟨A, A⟩
  | true, _, false => ⟨A, -A⟩
  | true, _, true => ⟨-A, A⟩

/-- The table of 42_plsc_decoder.md R131, written out: the coherent soft value of the symbol `x` at position `i`. -/
def softByTable (c : Params) (x : Sample) (i : Nat) : Int :=
  match c.refDiag, (if c.rotAlt then i % 2 else i % 4) with
  | false, 0 => x.i
  | false, 1 => x.q
  | false, 2 => -x.i
  | false, _ => -x.q
  | true, 0 => x.i + x.q
  | true, 1 => x.q - x.i
  | true, 2 => -x.i - x.q
  | true, _ => x.i - x.q

/-- The triples of 41_plsc_encoder.md R117, written out. -/
def refusedTriple (modcod : BitVec 5) (short : Bool) : Prop :=
  modcod = 29 ∨ modcod = 30 ∨ modcod = 31 ∨
    (short = true ∧ (modcod = 11 ∨ modcod = 17 ∨ modcod = 23 ∨ modcod = 28))

/-- The rows of 43_modcod_params.md R168: `n_mod`, `S`, and `n_pilots` when pilots are present. -/
def rowByTable (modcod : Nat) (short : Bool) : Nat × Nat × Nat :=
  if modcod = 0 then (0, 36, 0)
  else if modcod ≤ 11 then (if short then (2, 90, 5) else (2, 360, 22))
  else if modcod ≤ 17 then (if short then (3, 60, 3) else (3, 240, 14))
  else if modcod ≤ 23 then (if short then (4, 45, 2) else (4, 180, 11))
  else if modcod ≤ 28 then (if short then (5, 36, 2) else (5, 144, 8))
  else (0, 0, 0)

/-- The window `w` holds, after its first sample, the symbols `out` with the ones marked in `e` negated and all of
them multiplied by `j^k` (42_plsc_decoder.md R141). -/
def carries (w : Window) (out : Symbols) (e : CodeWord) (k : Int) : Prop :=
  ∀ (i : Nat) (h : i < 64),
    dinAt w (i + 1) = Sample.scale (if e.getMsbD i then -1 else 1) (mulJ k out[i])

/-- `PLSC.ENC p`, given to a block in the state `s`, drives the symbols `out`. -/
def encodesTo (s : State) (p : BitVec 7) (out : Symbols) : Prop :=
  exec (.plscEnc p) s = .next { s with responses := s.responses ++ [⟨.ok, p.setWidth 32, 0, some out⟩] }

/-- The result registers and `DEC_VALID` and `SOFT` of two states are the same (10_state.md R20). -/
def sameArchState (s t : State) : Prop :=
  t.decPlsc = s.decPlsc ∧ t.modcod = s.modcod ∧ t.shortFecframe = s.shortFecframe ∧ t.hasPilots = s.hasPilots ∧
    t.dummyFrame = s.dummyFrame ∧ t.nMod = s.nMod ∧ t.slots = s.slots ∧ t.nPilots = s.nPilots ∧
    t.plframeLen = s.plframeLen ∧ t.decMetric = s.decMetric ∧ t.decEffSoft = s.decEffSoft ∧
    t.decValid = s.decValid ∧ t.soft = s.soft

end Sys2Proof.Machine

/-! ## The inner codec -/

/-- R80, R81 (40_rm_codec.md): what `RM32.ENC` answers, with the rows of the generator matrix written out. Nothing
but the list of responses changes, and the window is not read. -/
def Obligations.Rm32EncAnswersTheMatrixProduct : Prop :=
  ∀ (d : BitVec 6) (s : State),
    decode (0x100000000000#48 ||| d.setWidth 48) = .ok (.rm32Enc d) ∧
    exec (.rm32Enc d) s = .next { s with responses := s.responses ++ [
      { status := .ok
        rval := (if d.getLsbD 5 then 0x55555555#32 else 0#32) ^^^ (if d.getLsbD 4 then 0x33333333#32 else 0#32)
          ^^^ (if d.getLsbD 3 then 0x0F0F0F0F#32 else 0#32) ^^^ (if d.getLsbD 2 then 0x00FF00FF#32 else 0#32)
          ^^^ (if d.getLsbD 1 then 0x0000FFFF#32 else 0#32) ^^^ (if d.getLsbD 0 then 0xFFFFFFFF#32 else 0#32)
        rmet := 0
        dout := none }] }

/-- The closed form of the inner code (40_rm_codec.md section 2, an inference of the spec), as what `RM32.ENC`
answers: bit `y_j` for every position `j`. -/
def Obligations.Rm32EncAnswersTheClosedForm : Prop :=
  ∀ (d : BitVec 6) (s : State), ∃ y : BitVec 32,
    exec (.rm32Enc d) s = .next { s with responses := s.responses ++ [⟨.ok, y, 0, none⟩] } ∧
    ∀ j < 32, y.getMsbD j =
      (d.getLsbD 0 ^^ (d.getLsbD 5 && j.testBit 0) ^^ (d.getLsbD 4 && j.testBit 1) ^^ (d.getLsbD 3 && j.testBit 2)
        ^^ (d.getLsbD 2 && j.testBit 3) ^^ (d.getLsbD 1 && j.testBit 4))

/-- The properties (a), (c), (d) the spec infers of `enc32` (40_rm_codec.md section 2): linearity, complement under
`d ⊕ 1`, and the distances between codewords. -/
def Obligations.InnerCodeIsLinearWithDistanceSixteen : Prop :=
  ∀ a b : BitVec 6,
    enc32 (a ^^^ b) = enc32 a ^^^ enc32 b ∧ enc32 (a ^^^ 1#6) = enc32 a ^^^ 0xFFFFFFFF#32 ∧
    (a ≠ b → popcount (enc32 a ^^^ enc32 b) = 16 ∨ (popcount (enc32 a ^^^ enc32 b) = 32 ∧ a ^^^ b = 1#6))

/-- R84 (40_rm_codec.md): what `RM32.DECH` answers: a dataword at the least Hamming distance, the least such
dataword, and that distance. -/
def Obligations.Rm32DechAnswersTheNearestDataword : Prop :=
  ∀ (w : BitVec 32) (s : State), ∃ (d : BitVec 6) (m : Nat),
    exec (.rm32Dech w) s = .next { s with responses := s.responses ++ [⟨.ok, d.setWidth 32, m, none⟩] } ∧
    m = popcount (w ^^^ enc32 d) ∧
    (∀ e : BitVec 6, m ≤ popcount (w ^^^ enc32 e)) ∧
    ∀ e : BitVec 6, popcount (w ^^^ enc32 e) = m → d.toNat ≤ e.toNat

/-- Up to 7 bit errors in the inner word are corrected, and counted (40_rm_codec.md section 4, corner cases of
`RM32.DECH`, from the minimum distance of section 2). -/
def Obligations.Rm32DechCorrectsUpToSevenErrors : Prop :=
  ∀ (d : BitVec 6) (w : BitVec 32) (s : State), popcount (w ^^^ enc32 d) ≤ 7 →
    exec (.rm32Dech w) s = .next { s with responses := s.responses ++ [
      ⟨.ok, d.setWidth 32, (popcount (w ^^^ enc32 d) : Int), none⟩] }

/-- R85 (40_rm_codec.md): what `RM32.DECS` answers on the soft values `DIN[j].I`: a dataword of the greatest
correlation, the least such dataword, and that correlation; bit 0 counts as `+1`, bit 1 as `-1`. -/
def Obligations.Rm32DecsAnswersTheBestCorrelation : Prop :=
  ∀ s : State, ∃ (d : BitVec 6) (m : Int),
    let corr : BitVec 6 → Int := fun e =>
      ∑ j ∈ Finset.range 32, (if (enc32 e).getMsbD j then -1 else 1) * (dinAt s.din j).i
    exec .rm32Decs s = .next { s with responses := s.responses ++ [⟨.ok, d.setWidth 32, m, none⟩] } ∧
    m = corr d ∧ (∀ e, corr e ≤ m) ∧ ∀ e, corr e = m → d.toNat ≤ e.toNat

/-- `RM32.DECS` depends on the `I` components of `DIN[0..31]` alone (40_rm_codec.md section 4): two states that agree
on them get the same answer. -/
def Obligations.Rm32DecsReadsOnlyThirtyTwoComponents : Prop :=
  ∀ s s' : State, (∀ j < 32, (dinAt s'.din j).i = (dinAt s.din j).i) → ∃ (d : BitVec 6) (m : Int),
    exec .rm32Decs s = .next { s with responses := s.responses ++ [⟨.ok, d.setWidth 32, m, none⟩] } ∧
    exec .rm32Decs s' = .next { s' with responses := s'.responses ++ [⟨.ok, d.setWidth 32, m, none⟩] }

/-- Soft and hard decoding of the inner code agree on inputs that are `±a`, ties included (40_rm_codec.md section 2,
an inference of the spec; 95_test_vectors.md E2). -/
def Obligations.SoftAndHardInnerDecodingAgree : Prop :=
  ∀ (w : BitVec 32) (a : Int) (s : State), 0 < a →
    (∀ j < 32, (dinAt s.din j).i = a * (if w.getMsbD j then -1 else 1)) → ∃ (d : BitVec 6) (m : Int),
    exec (.rm32Dech w) s = .next { s with responses := s.responses ++ [⟨.ok, d.setWidth 32, m, none⟩] } ∧
    exec .rm32Decs s =
      .next { s with responses := s.responses ++ [⟨.ok, d.setWidth 32, a * (32 - 2 * m), none⟩] }

/-! ## The (64,7) code -/

/-- R87, R88 (40_rm_codec.md): the two copies of inner code bit `j` stand at `pos(j, 0)` and `pos(j, 1)`, `pos` is a
bijection onto the positions 0 to 63, the first copy is sent as it is and the second is inverted when the external
bit is 1. -/
def Obligations.OuterCodewordFollowsTheDoublingRule : Prop :=
  (∀ (adj : Bool) (j k : Nat), pos adj j k = if adj then 2 * j + k else j + 32 * k) ∧
  (∀ (adj : Bool) (i : Nat), i < 64 → ∃! jk : Nat × Nat, jk.1 < 32 ∧ jk.2 < 2 ∧ pos adj jk.1 jk.2 = i) ∧
  (∀ (adj : Bool) (j k : Nat), j < 32 → k < 2 → pos adj j k < 64) ∧
  ∀ (adj : Bool) (p : BitVec 7),
    let y := enc32 (p.extractLsb' 1 6)
    (∀ j < 32, (enc64 adj p).getMsbD (pos adj j 0) = y.getMsbD j ∧
      (enc64 adj p).getMsbD (pos adj j 1) = (y.getMsbD j ^^ p.getLsbD 0)) ∧
    enc64 false p = y ++ (y ^^^ if p.getLsbD 0 then 0xFFFFFFFF#32 else 0#32)

/-- The properties (a) to (d) the spec infers of `enc64`, in both layouts (40_rm_codec.md section 3): linearity,
complement under `p ⊕ 2`, distance 32 or 64 between codewords. -/
def Obligations.OuterCodeIsLinearWithDistanceThirtyTwo : Prop :=
  ∀ (adj : Bool) (p q : BitVec 7),
    enc64 adj (p ^^^ q) = enc64 adj p ^^^ enc64 adj q ∧
    enc64 adj (p ^^^ 2#7) = enc64 adj p ^^^ 0xFFFFFFFFFFFFFFFF#64 ∧
    (p ≠ q → popcount (enc64 adj p ^^^ enc64 adj q) = 32 ∨
      (popcount (enc64 adj p ^^^ enc64 adj q) = 64 ∧ p ^^^ q = 2#7))

/-- Recombination (40_rm_codec.md section 3, an inference of the spec): decoding the 64 soft values over the 128
codewords is decoding the 32 sums and the 32 differences of the two copies with the inner decoder. -/
def Obligations.RecombinedInnerDecodingIsOuterDecoding : Prop :=
  ∀ (adj : Bool) (v : Nat → Int),
    let z : Bool → Nat → Int := fun h j => v (pos adj j 0) + (if h then -1 else 1) * v (pos adj j 1)
    let r0 := decs32 (z false)
    let r1 := decs32 (z true)
    decs64 adj v =
      if r1.2 < r0.2 then (r0.1 ++ 0#1, r0.2)
      else if r0.2 < r1.2 then (r1.1 ++ 1#1, r1.2)
      else if r0.1.toNat ≤ r1.1.toNat then (r0.1 ++ 0#1, r0.2)
      else (r1.1 ++ 1#1, r1.2)

/-- Hard decoding of the (64,7) code is soft decoding of the `±1` values (40_rm_codec.md section 3, an inference of
the spec). -/
def Obligations.OuterHardDecodingIsSoftDecodingOfSigns : Prop :=
  ∀ (adj : Bool) (r : CodeWord),
    let best := decs64 adj fun i => if r.getMsbD i then -1 else 1
    (dech64 adj r).1 = best.1 ∧ best.2 = 64 - 2 * (dech64 adj r).2

/-! ## The encoder -/

/-- What `PLSC.ENC` does (41_plsc_encoder.md sections 1, 2, 4; 40_rm_codec.md section 3): it drives the symbols of the scrambled codeword,
whose bit at `pos(j, 0)` is `y_j` and at `pos(j, 1)` is `y_j ⊕ x`, for all 128 values and with no check; nothing but
the list of responses changes, and the window is not read. -/
def Obligations.PlscEncDrivesTheScrambledCodeword : Prop :=
  ∀ (p : BitVec 7) (s : State),
    decode (0x400000000000#48 ||| p.setWidth 48) = .ok (.plscEnc p) ∧
    ∃ (c : BitVec 64) (out : Symbols),
      exec (.plscEnc p) s = .next { s with responses := s.responses ++ [⟨.ok, p.setWidth 32, 0, some out⟩] } ∧
      (∀ j < 32, ∀ k < 2,
        let at' := if s.params.layoutAdj then 2 * j + k else j + 32 * k
        c.getMsbD at' = ((enc32 (p.extractLsb' 1 6)).getMsbD j ^^ (decide (k = 1) && p.getLsbD 0))) ∧
      (p = 0#7 → c = 0#64) ∧ (p = 2#7 → c ^^^ 0x719D83C953422DFA#64 = 0x8E627C36ACBDD205#64) ∧
      ∀ (i : Nat) (h : i < 64),
        out[i] = mapsym s.params ((c ^^^ 0x719D83C953422DFA#64).getMsbD i) (i : Int)

/-- The mapper at every integer position, as the table of R114 (41_plsc_encoder.md section 2) writes it out, which the
spec marks as its own derivation, and the start-of-frame reference in the four configurations of R115, which the spec
supplies from general knowledge (log 15). -/
def Obligations.MapperFollowsTheTable : Prop :=
  (∀ (c : Params) (b : Bool) (i : Int), mapsym c b i = symbolByTable c b i) ∧
  ∀ c : Params, sofRef c =
    match c.rotAlt, c.refDiag with
    | false, false => ⟨0, -(c.amp : Int)⟩
    | true, false => ⟨0, c.amp⟩
    | false, true => ⟨c.amp, -(c.amp : Int)⟩
    | true, true => ⟨-(c.amp : Int), c.amp⟩

/-- R120 (41_plsc_encoder.md): `PLSC.ENC p=0` drives the scrambler sequence itself, in every configuration. -/
def Obligations.PlscEncOfZeroDrivesTheScrambler : Prop :=
  ∀ s : State, ∃ out : Symbols,
    exec (.plscEnc 0#7) s = .next { s with responses := s.responses ++ [⟨.ok, 0#32, 0, some out⟩] } ∧
    enc64 s.params.layoutAdj 0#7 = 0#64 ∧
    ∀ (i : Nat) (h : i < 64), out[i] = symbolByTable s.params ((0x719D83C953422DFA#64).getMsbD i) (i : Int)

/-- Scrambling before mapping is inverting the mapped symbol (41_plsc_encoder.md section 2, an inference of the
spec). -/
def Obligations.ScramblingCommutesWithMapping : Prop :=
  ∀ (c : Params) (b x : Bool) (i : Int),
    mapsym c (b ^^ x) i = if x then ⟨-(mapsym c b i).i, -(mapsym c b i).q⟩ else mapsym c b i

/-- R116 (41_plsc_encoder.md): a triple that is not refused is packed and encoded exactly as `PLSC.ENC` encodes
the packed value, whose fields are the triple. -/
def Obligations.PlscEncpEncodesAnAcceptedTriple : Prop :=
  ∀ (modcod : BitVec 5) (short pilots : Bool) (s : State), ¬ refusedTriple modcod short →
    let p : BitVec 7 := modcod ++ BitVec.ofBool short ++ BitVec.ofBool pilots
    exec (.plscEncp modcod short pilots) s = exec (.plscEnc p) s ∧
    p.extractLsb' 2 5 = modcod ∧ p.getLsbD 1 = short ∧ p.getLsbD 0 = pilots ∧
    ∃ out : Symbols, exec (.plscEncp modcod short pilots) s =
      .next { s with responses := s.responses ++ [⟨.ok, p.setWidth 32, 0, some out⟩] }

/-- R117 (41_plsc_encoder.md): a `PLSC.ENCP` ends with `INVALID_CFG` exactly when its triple is one of those the rule
lists; nothing is then driven and nothing written. -/
def Obligations.PlscEncpReportsARefusedTriple : Prop :=
  ∀ (modcod : BitVec 5) (short pilots : Bool) (s : State),
    (refusedTriple modcod short → exec (.plscEncp modcod short pilots) s =
      .next { s with responses := s.responses ++ [⟨.invalidCfg, 0#32, 0, none⟩] }) ∧
    (cfgInvalid modcod short pilots = true ↔ refusedTriple modcod short) ∧
    (¬ refusedTriple modcod short → ∃ (t : State) (r : Response),
      exec (.plscEncp modcod short pilots) s = .next t ∧ t.responses = s.responses ++ [r] ∧ r.status = .ok)

/-! ## The decoder -/

/-- `PLSC.DEC c=1 s=0` slices the coherent soft values, descrambles, and decodes to the least value at the least
distance (42_plsc_decoder.md R131, R132, R135; 40_rm_codec.md R90). That the scratch buffer keeps what it held is the
model's reading (log 13, DEDUCED; U6 of 93_implementation_defined.md would allow any value). -/
def Obligations.CoherentHardDecodeFindsTheNearestValue : Prop :=
  ∀ s : State, ∃ (p : BitVec 7) (m : Nat) (r : BitVec 64),
    exec (.plscDec true false) s = .next { writeResults p m false s with
      responses := s.responses ++ [⟨.ok, p.setWidth 32, m, none⟩] } ∧
    (∀ i < 64, r.getMsbD i = decide (softByTable s.params (dinAt s.din (i + 1)) i < 0)) ∧
    m = popcount (r ^^^ 0x719D83C953422DFA#64 ^^^ enc64 s.params.layoutAdj p) ∧
    (∀ q, m ≤ popcount (r ^^^ 0x719D83C953422DFA#64 ^^^ enc64 s.params.layoutAdj q)) ∧
    ∀ q, popcount (r ^^^ 0x719D83C953422DFA#64 ^^^ enc64 s.params.layoutAdj q) = m → p.toNat ≤ q.toNat

/-- R131, R136, R91 (42_plsc_decoder.md, 40_rm_codec.md): `PLSC.DEC c=1 s=1` writes the descrambled soft values to all
64 entries of `SOFT` and decodes to the least value of the greatest correlation; where a soft value is not 0 the two
descramblers agree. -/
def Obligations.CoherentSoftDecodeFindsTheBestCorrelation : Prop :=
  ∀ s : State, ∃ (p : BitVec 7) (m : Int) (u : Vector Int 64),
    let v : Nat → Int := fun i => softByTable s.params (dinAt s.din (i + 1)) i
    let corr : BitVec 7 → Int := fun q =>
      ∑ i ∈ Finset.range 64, (if (enc64 s.params.layoutAdj q).getMsbD i then -1 else 1) * softAt u i
    exec (.plscDec true true) s = .next { writeResults p m true s with
      soft := u
      responses := s.responses ++ [⟨.ok, p.setWidth 32, m, none⟩] } ∧
    (∀ (i : Nat) (h : i < 64), u[i] = if (0x719D83C953422DFA#64).getMsbD i then -(v i) else v i) ∧
    (∀ (i : Nat) (h : i < 64), v i ≠ 0 →
      decide (u[i] < 0) = (decide (v i < 0) ^^ (0x719D83C953422DFA#64).getMsbD i)) ∧
    m = corr p ∧ (∀ q, corr q ≤ m) ∧ ∀ q, corr q = m → p.toNat ≤ q.toNat

/-- `PLSC.DEC c=0`, with `s` 0 or 1, takes each bit from the sign of the product of neighbouring samples and the bit
before it, starting from 0, descrambles, and decodes to the least value at the least distance (42_plsc_decoder.md
R133, R135; 40_rm_codec.md R90). That the scratch buffer keeps what it held is the model's reading (log 13, DEDUCED;
U6 of 93_implementation_defined.md would allow any value). -/
def Obligations.DifferentialDecodeFindsTheNearestValue : Prop :=
  ∀ (sft : Bool) (s : State), ∃ (p : BitVec 7) (m : Nat) (r : BitVec 64),
    let change : Nat → Bool := fun i =>
      decide ((dinAt s.din (i + 1)).q * (dinAt s.din i).i - (dinAt s.din (i + 1)).i * (dinAt s.din i).q < 0)
        ^^ (s.params.rotAlt && decide (i % 2 = 0))
    exec (.plscDec false sft) s = .next { writeResults p m false s with
      responses := s.responses ++ [⟨.ok, p.setWidth 32, m, none⟩] } ∧
    r.getMsbD 0 = change 0 ∧ (∀ i < 63, r.getMsbD (i + 1) = (change (i + 1) ^^ r.getMsbD i)) ∧
    m = popcount (r ^^^ 0x719D83C953422DFA#64 ^^^ enc64 s.params.layoutAdj p) ∧
    (∀ q, m ≤ popcount (r ^^^ 0x719D83C953422DFA#64 ^^^ enc64 s.params.layoutAdj q)) ∧
    ∀ q, popcount (r ^^^ 0x719D83C953422DFA#64 ^^^ enc64 s.params.layoutAdj q) = m → p.toNat ≤ q.toNat

/-- The pair `C = 0, S = 1` is performed exactly as `C = 0, S = 0`, and `DEC_EFF_SOFT` records the mode used
(42_plsc_decoder.md R130). That `SOFT` is written in the soft mode only is the model's reading (log 13, DEDUCED; U6 of
93_implementation_defined.md would allow any value after a hard decode). -/
def Obligations.SoftWithoutCoherentFallsBackToHard : Prop :=
  ∀ s : State,
    exec (.plscDec false true) s = exec (.plscDec false false) s ∧
    ∀ c sft : Bool, ∃ t : State, exec (.plscDec c sft) s = .next t ∧ t.decEffSoft = (c && sft) ∧
      ((c && sft) = false → t.soft = s.soft)

/-- R160 to R166, R169 (43_modcod_params.md): what `PLSC.DEC` leaves in the registers that are derived from the
decoded value. -/
def Obligations.PlscDecWritesTheDerivedParameters : Prop :=
  ∀ (c sft : Bool) (s : State), ∃ t : State, exec (.plscDec c sft) s = .next t ∧
    let mc := (t.decPlsc.extractLsb' 2 5).toNat
    t.modcod = t.decPlsc.extractLsb' 2 5 ∧ t.shortFecframe = t.decPlsc.getLsbD 1 ∧
    (t.dummyFrame = true ↔ mc = 0) ∧ t.hasPilots = (t.decPlsc.getLsbD 0 && !t.dummyFrame) ∧
    t.nMod.toNat = (if mc = 0 then 0 else if mc ≤ 11 then 2 else if mc ≤ 17 then 3 else if mc ≤ 23 then 4
      else if mc ≤ 28 then 5 else 0) ∧
    t.slots.toNat = (if t.dummyFrame then 36 else if t.nMod.toNat = 0 then 0
      else (if t.shortFecframe then 16200 else 64800) / (t.nMod.toNat * 90)) ∧
    t.nPilots.toNat = (if t.hasPilots = true ∧ 1 ≤ t.slots.toNat then (t.slots.toNat - 1) / 16 else 0) ∧
    t.plframeLen.toNat = 90 + 90 * t.slots.toNat + 36 * t.nPilots.toNat ∧
    t.decValid = true

/-- The table of all outcomes (43_modcod_params.md section 3, an inference of the spec), with each division of the
table's classes exact and no number cut by its register's width (10_state.md section 6). -/
def Obligations.PlscDecWritesTheRowsOfTheTable : Prop :=
  ∀ (c sft : Bool) (s : State), ∃ t : State, exec (.plscDec c sft) s = .next t ∧
    let row := rowByTable t.modcod.toNat t.shortFecframe
    let np := if t.hasPilots then row.2.2 else 0
    t.nMod.toNat = row.1 ∧ t.slots.toNat = row.2.1 ∧ t.nPilots.toNat = np ∧
    t.plframeLen.toNat = 90 * (row.2.1 + 1) + 36 * np ∧ 18 ∣ t.plframeLen.toNat ∧
    90 ≤ t.plframeLen.toNat ∧ t.plframeLen.toNat ≤ 33282 ∧
    (0 < t.nPilots.toNat ↔ t.hasPilots = true ∧ t.nMod.toNat ≠ 0)

/-- R167 (43_modcod_params.md): a reserved MODCOD is decoded and written like any other value; only `PLSC.ENCP`
refuses it. -/
def Obligations.ReservedModcodsAreDecodedAndEncodedRaw : Prop :=
  (∀ (c sft : Bool) (s : State), ∃ t : State, exec (.plscDec c sft) s = .next t ∧
    ((29 ≤ t.modcod.toNat ↔ t.nMod = 0#3 ∧ t.dummyFrame = false) ∧
     (29 ≤ t.modcod.toNat → t.dummyFrame = false ∧ t.shortFecframe = t.decPlsc.getLsbD 1 ∧
      t.hasPilots = t.decPlsc.getLsbD 0 ∧ t.nMod = 0#3 ∧ t.slots = 0#9 ∧ t.nPilots = 0#5 ∧
      t.plframeLen = 90#16))) ∧
  ∀ (p : BitVec 7) (s : State), 116 ≤ p.toNat →
    (∃ out : Symbols, exec (.plscEnc p) s =
      .next { s with responses := s.responses ++ [⟨.ok, p.setWidth 32, 0, some out⟩] }) ∧
    exec (.plscEncp (p.extractLsb' 2 5) (p.getLsbD 1) (p.getLsbD 0)) s =
      .next { s with responses := s.responses ++ [⟨.invalidCfg, 0#32, 0, none⟩] }

/-- No history (10_state.md section 2): after a `PLSC.DEC` every result register, and the response, is a function of the
command, the window and the parameters alone, whatever the registers held before; and when the mode is soft so is
`SOFT`. -/
def Obligations.PlscDecLeavesNoHistory : Prop :=
  ∀ (c sft : Bool) (s s' : State), s'.params = s.params → s'.din = s.din → ∃ t t' : State,
    exec (.plscDec c sft) s = .next t ∧ exec (.plscDec c sft) s' = .next t' ∧
    sameArchState { t with soft := s.soft } { t' with soft := s.soft } ∧
    ((c && sft) = true → t'.soft = t.soft) ∧ t'.responsePort = t.responsePort

/-- The legal values of `DEC_METRIC` (10_state.md section 2): 0 to 64 in the hard modes, at most `2^(SW+6)` in
magnitude in the soft mode, on every window the port can carry; `RMET` carries the same number. -/
def Obligations.DecodeMetricStaysInItsRange : Prop :=
  ∀ (c sft : Bool) (s : State), 2 ≤ s.params.sw → windowFits s.params.sw s.din = true → ∃ t : State,
    exec (.plscDec c sft) s = .next t ∧
    ((c && sft) = false → 0 ≤ t.decMetric ∧ t.decMetric ≤ 64) ∧
    ((c && sft) = true → -(2 : Int) ^ (s.params.sw + 6) ≤ t.decMetric ∧
      t.decMetric ≤ (2 : Int) ^ (s.params.sw + 6)) ∧
    ∃ r, t.responsePort = some r ∧ r.rmet = t.decMetric ∧ r.rval = t.decPlsc.setWidth 32

/-! ## Properties of encoding and decoding together (42_plsc_decoder.md section 6, inferences of the spec) -/

/-- Coherent hard decoding of the symbols of `PLSC.ENC p`, any first sample, with up to 15 symbols negated: the value
is recovered and the metric counts the negated symbols. With none negated it is the round trip of
95_test_vectors.md E1, with one the single corruption of E5. -/
def Obligations.CoherentHardDecodeRecoversTheValue : Prop :=
  ∀ (s s' : State) (p : BitVec 7) (out : Symbols) (e : CodeWord),
    1 ≤ s.params.amp → s'.params = s.params → encodesTo s p out → carries s'.din out e 0 → popcount e ≤ 15 →
    ∃ t : State, exec (.plscDec true false) s' = .next t ∧ t.decPlsc = p ∧ t.decMetric = popcount e

/-- Coherent soft decoding of the same windows: the value is recovered and the metric is `(64 - 2k)·AMP` with `k`
symbols negated, twice that when `REF_DIAG` is true. -/
def Obligations.CoherentSoftDecodeRecoversTheValue : Prop :=
  ∀ (s s' : State) (p : BitVec 7) (out : Symbols) (e : CodeWord),
    1 ≤ s.params.amp → s'.params = s.params → encodesTo s p out → carries s'.din out e 0 → popcount e ≤ 15 →
    ∃ t : State, exec (.plscDec true true) s' = .next t ∧ t.decPlsc = p ∧
      t.decMetric = (64 - 2 * popcount e) * (s.params.amp * if s.params.refDiag then 2 else 1)

/-- Differential decoding of the same windows behind the start-of-frame reference, all 65 samples turned by any
number of quarter turns: the value is recovered and the metric counts the negated symbols (95_test_vectors.md E3). -/
def Obligations.DifferentialDecodeRecoversTheValue : Prop :=
  ∀ (sft : Bool) (s s' : State) (p : BitVec 7) (out : Symbols) (e : CodeWord) (k : Int),
    1 ≤ s.params.amp → s'.params = s.params → encodesTo s p out → carries s'.din out e k →
    dinAt s'.din 0 = mulJ k (sofRef s.params) → popcount e ≤ 15 →
    ∃ t : State, exec (.plscDec false sft) s' = .next t ∧ t.decPlsc = p ∧ t.decMetric = popcount e

/-- Differential decoding with the start-of-frame symbol inverted returns `p ⊕ 2` at distance 0: the sign of that
symbol decides `p[1]` (42_plsc_decoder.md section 2). -/
def Obligations.InvertedStartOfFrameFlipsTheShortFlag : Prop :=
  ∀ (sft : Bool) (s s' : State) (p : BitVec 7) (out : Symbols) (k : Int),
    1 ≤ s.params.amp → s'.params = s.params → encodesTo s p out → carries s'.din out 0#64 k →
    dinAt s'.din 0 = mulJ (k + 2) (sofRef s.params) →
    ∃ t : State, exec (.plscDec false sft) s' = .next t ∧ t.decPlsc = p ^^^ 2#7 ∧ t.decMetric = 0 ∧
      t.shortFecframe = !p.getLsbD 1

/-- A window multiplied by a positive integer decodes to the same registers and the same response, but for the metric
of the soft mode, which is multiplied likewise, as is then every entry of `SOFT` (42_plsc_decoder.md section 6, an
inference of the spec, says it of the registers). -/
def Obligations.ScalingTheWindowScalesSoftAndItsMetricOnly : Prop :=
  ∀ (c sft : Bool) (a : Int) (s s' : State), 0 < a → s'.params = s.params →
    (∀ i < 65, dinAt s'.din i = Sample.scale a (dinAt s.din i)) →
    let factor : Int := if c && sft then a else 1
    ∃ (t t' : State) (r : Response),
      exec (.plscDec c sft) s = .next t ∧ exec (.plscDec c sft) s' = .next t' ∧
      t'.decMetric = factor * t.decMetric ∧
      sameArchState { t with decMetric := 0, soft := s.soft } { t' with decMetric := 0, soft := s.soft } ∧
      ((c && sft) = true → ∀ i < 64, softAt t'.soft i = a * softAt t.soft i) ∧
      t.responses = s.responses ++ [r] ∧ t'.responses = s'.responses ++ [{ r with rmet := factor * r.rmet }]

/-- Differential decoding does not see a common rotation of all 65 samples by quarter turns
(42_plsc_decoder.md section 2). -/
def Obligations.QuarterTurnsAreInvisibleToDifferentialDecoding : Prop :=
  ∀ (sft : Bool) (k : Int) (s s' : State), s'.params = s.params →
    (∀ i < 65, dinAt s'.din i = mulJ k (dinAt s.din i)) → ∃ t t' : State,
    exec (.plscDec false sft) s = .next t ∧ exec (.plscDec false sft) s' = .next t' ∧
    sameArchState { t with soft := s.soft } { t' with soft := s.soft } ∧ t'.responsePort = t.responsePort

/-- The coherent modes never read `DIN[0]` (20_memory.md section 1). -/
def Obligations.CoherentDecodingIgnoresTheFirstSample : Prop :=
  ∀ (sft : Bool) (s s' : State), s'.params = s.params →
    (∀ i < 64, dinAt s'.din (i + 1) = dinAt s.din (i + 1)) → ∃ t t' : State,
    exec (.plscDec true sft) s = .next t ∧ exec (.plscDec true sft) s' = .next t' ∧
    sameArchState { t with soft := s.soft } { t' with soft := s.soft } ∧ (sft = true → t'.soft = t.soft) ∧
    t'.responsePort = t.responsePort

/-! ## All commands: completion, frames, status -/

/-- The frame of five commands (10_state.md sections 1 to 3): no command but `PLSC.DEC` writes any register, `DEC_VALID` or `SOFT`: whatever such
a command answers, one response is all that changes. -/
def Obligations.OnlyPlscDecWritesState : Prop :=
  ∀ (i : Instr) (s : State), (∀ c sft, i ≠ .plscDec c sft) →
    ∃ r : Response, exec i s = .next { s with responses := s.responses ++ [r] }

/-- R181, R191 (60_exceptions.md): every legal command ends with one response; its status is `OK` but for a
`PLSC.ENCP` whose triple is refused, which writes no register and drives nothing; the earlier responses, the
parameters and the ports of the host are left alone, and only an encode drives `DOUT`. -/
def Obligations.EveryCommandAnswersOnceWithTheStatusOfTheSpec : Prop :=
  ∀ (i : Instr) (s : State), ∃ (t : State) (r : Response), exec i s = .next t ∧
    t.responses = s.responses ++ [r] ∧ t.params = s.params ∧ t.din = s.din ∧ t.host = s.host ∧ t.draws = s.draws ∧
    (r.status = .invalidCfg ↔ ∃ m sh q, i = .plscEncp m sh q ∧ refusedTriple m sh) ∧ r.status ≠ .illegalCmd ∧
    (r.status ≠ .ok → r.rval = 0#32 ∧ r.rmet = 0 ∧ r.dout = none ∧ sameArchState s t) ∧
    (r.dout.isSome = true → (∃ p, i = .plscEnc p) ∨ ∃ m sh q, i = .plscEncp m sh q)

/-! ## Decoding of command words -/

/-- Decoding the word of a command gives it back, for every command and every value of its operands
(30_encoding.md section 7). -/
def Obligations.DecodeOfEncodeIsTheCommand : Prop := ∀ i : Instr, decode (encode i) = .ok i

/-- Each legal word has one meaning: encoding what was decoded gives the word back, so no bit of a legal word is
dropped (30_encoding.md section 4). -/
def Obligations.EncodeOfDecodeIsTheWord : Prop :=
  ∀ (cw : CmdWord) (i : Instr), decode cw = .ok i → encode i = cw

/-- R64 (30_encoding.md): the four ways in which a word is illegal, and no other; an illegal word is answered with
`ILLEGAL_CMD`, no register is written and `DOUT` is not driven; every other word is the word of exactly one command. -/
def Obligations.IllegalWordsAreExactlyThoseOfTheSpec : Prop :=
  ∀ cw : CmdWord,
    let op := (cw.extractLsb' 44 4).toNat
    let used := if op = 1 then 6 else if op = 2 then 32 else if op = 4 ∨ op = 5 then 7 else 0
    ((∃ e, decode cw = .error e) ↔
      op = 0 ∨ 7 ≤ op ∨ cw.extractLsb' 32 10 ≠ 0#10 ∨
      ((cw.getLsbD 43 = true ∨ cw.getLsbD 42 = true) ∧ op ≠ 6) ∨
      ∃ k, used ≤ k ∧ k < 32 ∧ cw.getLsbD k = true) ∧
    (∀ (e : IllegalWord) (s : State), decode cw = .error e →
      performWord cw s = .next { s with responses := s.responses ++ [⟨.illegalCmd, 0#32, 0, none⟩] }) ∧
    ((∃ e, decode cw = .error e) ∨ ∃! i, encode i = cw)

/-- The rows of the opcode table by their masks (30_encoding.md section 7, an inference of the spec): a word decodes
to a row's command exactly when `CW & mask = match`. -/
def Obligations.DecodingFollowsTheMasksOfTheTable : Prop :=
  ∀ cw : CmdWord,
    ((∃ d, decode cw = .ok (.rm32Enc d)) ↔ cw &&& 0xFFFFFFFFFFC0#48 = 0x100000000000#48) ∧
    ((∃ w, decode cw = .ok (.rm32Dech w)) ↔ cw &&& 0xFFFF00000000#48 = 0x200000000000#48) ∧
    (decode cw = .ok .rm32Decs ↔ cw &&& 0xFFFFFFFFFFFF#48 = 0x300000000000#48) ∧
    ((∃ p, decode cw = .ok (.plscEnc p)) ↔ cw &&& 0xFFFFFFFFFF80#48 = 0x400000000000#48) ∧
    ((∃ m sh q, decode cw = .ok (.plscEncp m sh q)) ↔ cw &&& 0xFFFFFFFFFF80#48 = 0x500000000000#48) ∧
    ((∃ c sft, decode cw = .ok (.plscDec c sft)) ↔ cw &&& 0xF3FFFFFFFFFF#48 = 0x600000000000#48)

/-- Words written out in 30_encoding.md (the examples of R68 and the pseudo spellings of R67) decode to the commands
they stand for. -/
def Obligations.WordsOfTheSpecDecodeAsItSays : Prop :=
  decode 0x10000000002A#48 = .ok (.rm32Enc 42#6) ∧
  decode 0x20005A5AA5A5#48 = .ok (.rm32Dech 0x5A5AA5A5#32) ∧
  decode 0x300000000000#48 = .ok .rm32Decs ∧
  decode 0x400000000011#48 = .ok (.plscEnc 0x11#7) ∧
  decode 0x500000000037#48 = .ok (.plscEncp 13#5 true true) ∧
  decode 0x6C0000000000#48 = .ok (.plscDec true true) ∧
  decode 0x680000000000#48 = .ok (.plscDec true false) ∧
  decode 0x600000000000#48 = .ok (.plscDec false false) ∧
  decode 0x640000000000#48 = .ok (.plscDec false true)

/-! ## Steps and runs -/

/-- A step runs the decoded command: when the host's next event presents a legal word with a window the port can
carry, the step is `exec` of the decoded command on the state in which that window stands at `DIN`, the event is
taken, and the count of the free values has moved on (log 1, 8, 9: the model's form of 30_encoding.md section 1). -/
def Obligations.AStepRunsTheDecodedCommand : Prop :=
  ∀ (s : State) (cw : CmdWord) (din : Window) (rest : List HostEvent) (i : Instr),
    s.host = .command cw din :: rest → windowFits s.params.sw din = true → decode cw = .ok i →
    step s = exec i { s with din := din, host := rest, draws := s.draws + 1 }

/-- An illegal word is answered with `ILLEGAL_CMD` and writes nothing: the registers, `DEC_VALID` and `SOFT` are as
they were (60_exceptions.md R182). That the event is taken, the window stands at `DIN` and the count of the free
values moves on is the model's own (log 1, 9, 8, DESIGN CHOICE). -/
def Obligations.AnIllegalWordIsReportedAndWritesNothing : Prop :=
  ∀ (s : State) (cw : CmdWord) (din : Window) (rest : List HostEvent) (e : IllegalWord),
    s.host = .command cw din :: rest → windowFits s.params.sw din = true → decode cw = .error e →
    step s = .next { s with din := din, host := rest, draws := s.draws + 1,
                            responses := s.responses ++ [⟨.illegalCmd, 0#32, 0, none⟩] }

/-- R183 (60_exceptions.md): legality comes first: a `PLSC.ENCP` word with a reserved bit set and a refused triple
reports `ILLEGAL_CMD`, and the same word without the reserved bit reports `INVALID_CFG`. -/
def Obligations.LegalityIsTestedBeforeTheTriple : Prop :=
  ∀ (s : State) (din : Window) (rest : List HostEvent) (m : BitVec 5) (sh q : Bool) (rsv : BitVec 10),
    refusedTriple m sh → windowFits s.params.sw din = true →
    s.host = .command (0x5#4 ++ 0#2 ++ rsv ++ 0#25 ++ m ++ BitVec.ofBool sh ++ BitVec.ofBool q) din :: rest →
    ∃ (t : State) (r : Response), step s = .next t ∧ t.responses = s.responses ++ [r] ∧ sameArchState s t ∧
      r = ⟨if rsv = 0#10 then .invalidCfg else .illegalCmd, 0#32, 0, none⟩

/-- Each presented command, legal or not, is answered with exactly one response, and when nothing is presented the
block does nothing and its state does not change (30_encoding.md R61). That the event is taken from a list, that a
step with an empty list is that waiting, and that the port shows the response after it are the model's form (log 1,
DESIGN CHOICE; log 10, DEDUCED; log 2, DESIGN CHOICE). -/
def Obligations.EachPresentedCommandGetsOneResponse : Prop :=
  (∀ s : State, s.host = [] → step s = .next s) ∧
  ∀ (s : State) (cw : CmdWord) (din : Window) (rest : List HostEvent),
    s.host = .command cw din :: rest → windowFits s.params.sw din = true →
    ∃ (t : State) (r : Response), step s = .next t ∧ t.responses = s.responses ++ [r] ∧ t.host = rest ∧
      t.responsePort = some r

/-- Reset (70_reset_and_hazards.md section 1): reset at any time gives no response and leaves `DEC_VALID = 0` and the
response port not driven, as in `State.reset`; the parameters stay (log 12). What the other registers hold is the
model's own value, and every port but `DEC_VALID` shows a free value (log 6, 8). -/
def Obligations.ResetClearsDecValidAndTheResponse : Prop :=
  (State.reset.decValid = false ∧ State.reset.responsePort = none) ∧
  ∀ (s : State) (rest : List HostEvent), s.host = .reset :: rest →
    ∃ t : State, step s = .next t ∧ t.decValid = false ∧ t.responsePort = none ∧ t.params = s.params ∧
      t.host = rest ∧ t.ports = freePorts t.params t.draws

/-- What the model refuses, and nothing else (log 5, 11; U2, U3, U12 of 93_implementation_defined.md): a step is
refused exactly when the host's next event breaks its contract, and in every other state it answers a next state. -/
def Obligations.AStepIsRefusedExactlyWhenTheHostBreaksItsContract : Prop :=
  ∀ s : State,
    ((∃ r, step s = .refused r) ↔ ∃ e rest, s.host = e :: rest ∧ e.keepsContract s.params = false) ∧
    ((∃ t, step s = .next t) ↔ ∀ e rest, s.host = e :: rest → e.keepsContract s.params = true)

/-- `DEC_VALID` becomes 1 with a `PLSC.DEC` and only reset clears it (10_state.md sections 1 and 2). -/
def Obligations.DecValidIsSetByPlscDecAndClearedByResetOnly : Prop :=
  ∀ (s t : State), step s = .next t →
    (t.decValid = true ↔
      (∃ cw din rest c sft, s.host = .command cw din :: rest ∧ decode cw = .ok (.plscDec c sft)) ∨
      (s.decValid = true ∧ ∀ rest, s.host ≠ .reset :: rest))

/-- After a `PLSC.DEC` the read-only ports show the registers it wrote (10_state.md section 6), and they show the same
after any further command but a `PLSC.DEC`. -/
def Obligations.PortsShowTheLastDecode : Prop :=
  ∀ (c sft : Bool) (i : Instr) (s : State), (∀ c' sft', i ≠ .plscDec c' sft') → ∃ t u : State,
    exec (.plscDec c sft) s = .next t ∧ exec i t = .next u ∧ u.ports = t.ports ∧
    t.ports = { decPlsc := t.decPlsc, modcod := t.modcod, shortFecframe := t.shortFecframe,
                hasPilots := t.hasPilots, dummyFrame := t.dummyFrame, nMod := t.nMod, slots := t.slots,
                nPilots := t.nPilots, plframeLen := t.plframeLen, decMetric := t.decMetric,
                decEffSoft := t.decEffSoft, decValid := true }

/-- The invariant holds right after reset (log 3, 6, 7, 9: on the values the model names). -/
def Obligations.TheInvariantHoldsAtReset : Prop := State.reset.inv = true

/-- Every step keeps the invariant: legal parameters, windows and soft values within their widths, registers that
agree with one another, legal responses (10_state.md section 6: no sum outgrows its register). -/
def Obligations.EveryStepKeepsTheInvariant : Prop :=
  ∀ s t : State, s.inv = true → step s = .next t → t.inv = true

/-- No run stops while the host keeps its contract, whatever it presents (60_exceptions.md sections 1 and 5,
70_reset_and_hazards.md section 3). -/
def Obligations.ARunNeverStopsWhileTheHostKeepsItsContract : Prop :=
  ∀ s : State, s.hostKeepsContract = true → s.Safe

/-- Every presented command is answered, once, in the host's order (70_reset_and_hazards.md sections 3 and 4): from
any state whose host keeps its contract and does not reset the block, as many steps as there are commands answer them
all, the earlier responses standing first. The response at place `k` answers the command at place `k`: it is the one
that performing that word on that window gives in the state before the run, so no response depends on the commands
between (10_state.md section 2, no history). -/
def Obligations.EveryPresentedCommandIsAnswered : Prop :=
  ∀ s : State, s.hostKeepsContract = true → (.reset ∉ s.host) → ∃ (t : State) (rs : List Response),
    Host.Core.run Sys2Proof.core s.host.length s = .next t ∧ t.host = [] ∧
    t.responses = s.responses ++ rs ∧ rs.length = s.host.length ∧ t.params = s.params ∧
    ∀ (k : Nat) (cw : CmdWord) (din : Window), s.host[k]? = some (.command cw din) →
      ∃ (r : Response) (v : State), rs[k]? = some r ∧ performWord cw { s with din := din } = .next v ∧
        v.responses = s.responses ++ [r]

/-- The decoded parameters stay until the next `PLSC.DEC` or reset (70_reset_and_hazards.md section 2): no run in
which neither is among what the host still does changes a register, `DEC_VALID` or `SOFT`. -/
def Obligations.ResultsStayUntilTheNextDecodeOrReset : Prop :=
  ∀ (k : Nat) (s t : State), .reset ∉ s.host →
    (∀ cw din c sft, HostEvent.command cw din ∈ s.host → decode cw ≠ .ok (.plscDec c sft)) →
    Host.Core.run Sys2Proof.core k s = .next t → sameArchState s t
end

