-- ==== Sys2Proof/Laws/State.lean ====
section
/-! SUPPORT. One lemma per field for each update of State, so that no later proof unfolds a record update. -/

set_option Elab.async false

namespace Sys2Proof.Machine

variable (s : State)

/-! ## `respond`: only the responses change -/

@[simp] theorem respond_params (r : Response) :
    (respond r s).params = s.params := rfl
@[simp] theorem respond_decPlsc (r : Response) :
    (respond r s).decPlsc = s.decPlsc := rfl
@[simp] theorem respond_modcod (r : Response) :
    (respond r s).modcod = s.modcod := rfl
@[simp] theorem respond_shortFecframe (r : Response) :
    (respond r s).shortFecframe = s.shortFecframe := rfl
@[simp] theorem respond_hasPilots (r : Response) :
    (respond r s).hasPilots = s.hasPilots := rfl
@[simp] theorem respond_dummyFrame (r : Response) :
    (respond r s).dummyFrame = s.dummyFrame := rfl
@[simp] theorem respond_nMod (r : Response) :
    (respond r s).nMod = s.nMod := rfl
@[simp] theorem respond_slots (r : Response) :
    (respond r s).slots = s.slots := rfl
@[simp] theorem respond_nPilots (r : Response) :
    (respond r s).nPilots = s.nPilots := rfl
@[simp] theorem respond_plframeLen (r : Response) :
    (respond r s).plframeLen = s.plframeLen := rfl
@[simp] theorem respond_decMetric (r : Response) :
    (respond r s).decMetric = s.decMetric := rfl
@[simp] theorem respond_decEffSoft (r : Response) :
    (respond r s).decEffSoft = s.decEffSoft := rfl
@[simp] theorem respond_decValid (r : Response) :
    (respond r s).decValid = s.decValid := rfl
@[simp] theorem respond_soft (r : Response) :
    (respond r s).soft = s.soft := rfl
@[simp] theorem respond_din (r : Response) :
    (respond r s).din = s.din := rfl
@[simp] theorem respond_host (r : Response) :
    (respond r s).host = s.host := rfl
@[simp] theorem respond_responses (r : Response) :
    (respond r s).responses = s.responses ++ [r] := rfl
@[simp] theorem respond_draws (r : Response) :
    (respond r s).draws = s.draws := rfl

/-! ## `finish`: only the responses change -/

@[simp] theorem finish_params (v : BitVec 32) (m : Int) (d : Option Symbols) :
    (finish v m d s).params = s.params := rfl
@[simp] theorem finish_decPlsc (v : BitVec 32) (m : Int) (d : Option Symbols) :
    (finish v m d s).decPlsc = s.decPlsc := rfl
@[simp] theorem finish_modcod (v : BitVec 32) (m : Int) (d : Option Symbols) :
    (finish v m d s).modcod = s.modcod := rfl
@[simp] theorem finish_shortFecframe (v : BitVec 32) (m : Int) (d : Option Symbols) :
    (finish v m d s).shortFecframe = s.shortFecframe := rfl
@[simp] theorem finish_hasPilots (v : BitVec 32) (m : Int) (d : Option Symbols) :
    (finish v m d s).hasPilots = s.hasPilots := rfl
@[simp] theorem finish_dummyFrame (v : BitVec 32) (m : Int) (d : Option Symbols) :
    (finish v m d s).dummyFrame = s.dummyFrame := rfl
@[simp] theorem finish_nMod (v : BitVec 32) (m : Int) (d : Option Symbols) :
    (finish v m d s).nMod = s.nMod := rfl
@[simp] theorem finish_slots (v : BitVec 32) (m : Int) (d : Option Symbols) :
    (finish v m d s).slots = s.slots := rfl
@[simp] theorem finish_nPilots (v : BitVec 32) (m : Int) (d : Option Symbols) :
    (finish v m d s).nPilots = s.nPilots := rfl
@[simp] theorem finish_plframeLen (v : BitVec 32) (m : Int) (d : Option Symbols) :
    (finish v m d s).plframeLen = s.plframeLen := rfl
@[simp] theorem finish_decMetric (v : BitVec 32) (m : Int) (d : Option Symbols) :
    (finish v m d s).decMetric = s.decMetric := rfl
@[simp] theorem finish_decEffSoft (v : BitVec 32) (m : Int) (d : Option Symbols) :
    (finish v m d s).decEffSoft = s.decEffSoft := rfl
@[simp] theorem finish_decValid (v : BitVec 32) (m : Int) (d : Option Symbols) :
    (finish v m d s).decValid = s.decValid := rfl
@[simp] theorem finish_soft (v : BitVec 32) (m : Int) (d : Option Symbols) :
    (finish v m d s).soft = s.soft := rfl
@[simp] theorem finish_din (v : BitVec 32) (m : Int) (d : Option Symbols) :
    (finish v m d s).din = s.din := rfl
@[simp] theorem finish_host (v : BitVec 32) (m : Int) (d : Option Symbols) :
    (finish v m d s).host = s.host := rfl
@[simp] theorem finish_responses (v : BitVec 32) (m : Int) (d : Option Symbols) :
    (finish v m d s).responses = s.responses ++ [⟨.ok, v, m, d⟩] := rfl
@[simp] theorem finish_draws (v : BitVec 32) (m : Int) (d : Option Symbols) :
    (finish v m d s).draws = s.draws := rfl

/-! ## `raise`: only the responses change -/

@[simp] theorem raise_params (st : Status) :
    (raise st s).params = s.params := rfl
@[simp] theorem raise_decPlsc (st : Status) :
    (raise st s).decPlsc = s.decPlsc := rfl
@[simp] theorem raise_modcod (st : Status) :
    (raise st s).modcod = s.modcod := rfl
@[simp] theorem raise_shortFecframe (st : Status) :
    (raise st s).shortFecframe = s.shortFecframe := rfl
@[simp] theorem raise_hasPilots (st : Status) :
    (raise st s).hasPilots = s.hasPilots := rfl
@[simp] theorem raise_dummyFrame (st : Status) :
    (raise st s).dummyFrame = s.dummyFrame := rfl
@[simp] theorem raise_nMod (st : Status) :
    (raise st s).nMod = s.nMod := rfl
@[simp] theorem raise_slots (st : Status) :
    (raise st s).slots = s.slots := rfl
@[simp] theorem raise_nPilots (st : Status) :
    (raise st s).nPilots = s.nPilots := rfl
@[simp] theorem raise_plframeLen (st : Status) :
    (raise st s).plframeLen = s.plframeLen := rfl
@[simp] theorem raise_decMetric (st : Status) :
    (raise st s).decMetric = s.decMetric := rfl
@[simp] theorem raise_decEffSoft (st : Status) :
    (raise st s).decEffSoft = s.decEffSoft := rfl
@[simp] theorem raise_decValid (st : Status) :
    (raise st s).decValid = s.decValid := rfl
@[simp] theorem raise_soft (st : Status) :
    (raise st s).soft = s.soft := rfl
@[simp] theorem raise_din (st : Status) :
    (raise st s).din = s.din := rfl
@[simp] theorem raise_host (st : Status) :
    (raise st s).host = s.host := rfl
@[simp] theorem raise_responses (st : Status) :
    (raise st s).responses = s.responses ++ [⟨st, 0, 0, none⟩] := rfl
@[simp] theorem raise_draws (st : Status) :
    (raise st s).draws = s.draws := rfl

/-! ## `accept`: the window, the host's list, the count of draws -/

@[simp] theorem accept_params (w : Window) (l : List HostEvent) :
    (accept w l s).params = s.params := rfl
@[simp] theorem accept_decPlsc (w : Window) (l : List HostEvent) :
    (accept w l s).decPlsc = s.decPlsc := rfl
@[simp] theorem accept_modcod (w : Window) (l : List HostEvent) :
    (accept w l s).modcod = s.modcod := rfl
@[simp] theorem accept_shortFecframe (w : Window) (l : List HostEvent) :
    (accept w l s).shortFecframe = s.shortFecframe := rfl
@[simp] theorem accept_hasPilots (w : Window) (l : List HostEvent) :
    (accept w l s).hasPilots = s.hasPilots := rfl
@[simp] theorem accept_dummyFrame (w : Window) (l : List HostEvent) :
    (accept w l s).dummyFrame = s.dummyFrame := rfl
@[simp] theorem accept_nMod (w : Window) (l : List HostEvent) :
    (accept w l s).nMod = s.nMod := rfl
@[simp] theorem accept_slots (w : Window) (l : List HostEvent) :
    (accept w l s).slots = s.slots := rfl
@[simp] theorem accept_nPilots (w : Window) (l : List HostEvent) :
    (accept w l s).nPilots = s.nPilots := rfl
@[simp] theorem accept_plframeLen (w : Window) (l : List HostEvent) :
    (accept w l s).plframeLen = s.plframeLen := rfl
@[simp] theorem accept_decMetric (w : Window) (l : List HostEvent) :
    (accept w l s).decMetric = s.decMetric := rfl
@[simp] theorem accept_decEffSoft (w : Window) (l : List HostEvent) :
    (accept w l s).decEffSoft = s.decEffSoft := rfl
@[simp] theorem accept_decValid (w : Window) (l : List HostEvent) :
    (accept w l s).decValid = s.decValid := rfl
@[simp] theorem accept_soft (w : Window) (l : List HostEvent) :
    (accept w l s).soft = s.soft := rfl
@[simp] theorem accept_din (w : Window) (l : List HostEvent) :
    (accept w l s).din = w := rfl
@[simp] theorem accept_host (w : Window) (l : List HostEvent) :
    (accept w l s).host = l := rfl
@[simp] theorem accept_responses (w : Window) (l : List HostEvent) :
    (accept w l s).responses = s.responses := rfl
@[simp] theorem accept_draws (w : Window) (l : List HostEvent) :
    (accept w l s).draws = s.draws + 1 := rfl

/-! ## `assertReset`: everything but the parameters -/

@[simp] theorem assertReset_params (l : List HostEvent) :
    (assertReset l s).params = s.params := rfl
@[simp] theorem assertReset_decPlsc (l : List HostEvent) :
    (assertReset l s).decPlsc = State.reset.decPlsc := rfl
@[simp] theorem assertReset_modcod (l : List HostEvent) :
    (assertReset l s).modcod = State.reset.modcod := rfl
@[simp] theorem assertReset_shortFecframe (l : List HostEvent) :
    (assertReset l s).shortFecframe = State.reset.shortFecframe := rfl
@[simp] theorem assertReset_hasPilots (l : List HostEvent) :
    (assertReset l s).hasPilots = State.reset.hasPilots := rfl
@[simp] theorem assertReset_dummyFrame (l : List HostEvent) :
    (assertReset l s).dummyFrame = State.reset.dummyFrame := rfl
@[simp] theorem assertReset_nMod (l : List HostEvent) :
    (assertReset l s).nMod = State.reset.nMod := rfl
@[simp] theorem assertReset_slots (l : List HostEvent) :
    (assertReset l s).slots = State.reset.slots := rfl
@[simp] theorem assertReset_nPilots (l : List HostEvent) :
    (assertReset l s).nPilots = State.reset.nPilots := rfl
@[simp] theorem assertReset_plframeLen (l : List HostEvent) :
    (assertReset l s).plframeLen = State.reset.plframeLen := rfl
@[simp] theorem assertReset_decMetric (l : List HostEvent) :
    (assertReset l s).decMetric = State.reset.decMetric := rfl
@[simp] theorem assertReset_decEffSoft (l : List HostEvent) :
    (assertReset l s).decEffSoft = State.reset.decEffSoft := rfl
@[simp] theorem assertReset_decValid (l : List HostEvent) :
    (assertReset l s).decValid = false := rfl
@[simp] theorem assertReset_soft (l : List HostEvent) :
    (assertReset l s).soft = State.reset.soft := rfl
@[simp] theorem assertReset_din (l : List HostEvent) :
    (assertReset l s).din = zeroWindow := rfl
@[simp] theorem assertReset_host (l : List HostEvent) :
    (assertReset l s).host = l := rfl
@[simp] theorem assertReset_responses (l : List HostEvent) :
    (assertReset l s).responses = [] := rfl
@[simp] theorem assertReset_draws (l : List HostEvent) :
    (assertReset l s).draws = s.draws + 1 := rfl

/-! ## `writeSoft`: only the scratch buffer -/

@[simp] theorem writeSoft_params (u : Nat → Int) :
    (writeSoft u s).params = s.params := by simp only [writeSoft]
@[simp] theorem writeSoft_decPlsc (u : Nat → Int) :
    (writeSoft u s).decPlsc = s.decPlsc := by simp only [writeSoft]
@[simp] theorem writeSoft_modcod (u : Nat → Int) :
    (writeSoft u s).modcod = s.modcod := by simp only [writeSoft]
@[simp] theorem writeSoft_shortFecframe (u : Nat → Int) :
    (writeSoft u s).shortFecframe = s.shortFecframe := by simp only [writeSoft]
@[simp] theorem writeSoft_hasPilots (u : Nat → Int) :
    (writeSoft u s).hasPilots = s.hasPilots := by simp only [writeSoft]
@[simp] theorem writeSoft_dummyFrame (u : Nat → Int) :
    (writeSoft u s).dummyFrame = s.dummyFrame := by simp only [writeSoft]
@[simp] theorem writeSoft_nMod (u : Nat → Int) :
    (writeSoft u s).nMod = s.nMod := by simp only [writeSoft]
@[simp] theorem writeSoft_slots (u : Nat → Int) :
    (writeSoft u s).slots = s.slots := by simp only [writeSoft]
@[simp] theorem writeSoft_nPilots (u : Nat → Int) :
    (writeSoft u s).nPilots = s.nPilots := by simp only [writeSoft]
@[simp] theorem writeSoft_plframeLen (u : Nat → Int) :
    (writeSoft u s).plframeLen = s.plframeLen := by simp only [writeSoft]
@[simp] theorem writeSoft_decMetric (u : Nat → Int) :
    (writeSoft u s).decMetric = s.decMetric := by simp only [writeSoft]
@[simp] theorem writeSoft_decEffSoft (u : Nat → Int) :
    (writeSoft u s).decEffSoft = s.decEffSoft := by simp only [writeSoft]
@[simp] theorem writeSoft_decValid (u : Nat → Int) :
    (writeSoft u s).decValid = s.decValid := by simp only [writeSoft]
@[simp] theorem writeSoft_soft (u : Nat → Int) :
    (writeSoft u s).soft = Vector.ofFn fun i : Fin 64 => u i.val := by simp only [writeSoft]
@[simp] theorem writeSoft_din (u : Nat → Int) :
    (writeSoft u s).din = s.din := by simp only [writeSoft]
@[simp] theorem writeSoft_host (u : Nat → Int) :
    (writeSoft u s).host = s.host := by simp only [writeSoft]
@[simp] theorem writeSoft_responses (u : Nat → Int) :
    (writeSoft u s).responses = s.responses := by simp only [writeSoft]
@[simp] theorem writeSoft_draws (u : Nat → Int) :
    (writeSoft u s).draws = s.draws := by simp only [writeSoft]

/-! ## `writeResults`: the result registers and `DEC_VALID` -/

@[simp] theorem writeResults_params (p : BitVec 7) (m : Int) (e : Bool) :
    (writeResults p m e s).params = s.params := rfl
@[simp] theorem writeResults_decPlsc (p : BitVec 7) (m : Int) (e : Bool) :
    (writeResults p m e s).decPlsc = p := rfl
@[simp] theorem writeResults_modcod (p : BitVec 7) (m : Int) (e : Bool) :
    (writeResults p m e s).modcod = modcodOf p := rfl
@[simp] theorem writeResults_shortFecframe (p : BitVec 7) (m : Int) (e : Bool) :
    (writeResults p m e s).shortFecframe = shortOf p := rfl
@[simp] theorem writeResults_hasPilots (p : BitVec 7) (m : Int) (e : Bool) :
    (writeResults p m e s).hasPilots = pilotsOf p := rfl
@[simp] theorem writeResults_dummyFrame (p : BitVec 7) (m : Int) (e : Bool) :
    (writeResults p m e s).dummyFrame = dummyOf p := rfl
@[simp] theorem writeResults_nMod (p : BitVec 7) (m : Int) (e : Bool) :
    (writeResults p m e s).nMod = BitVec.ofNat 3 (nModOf p) := rfl
@[simp] theorem writeResults_slots (p : BitVec 7) (m : Int) (e : Bool) :
    (writeResults p m e s).slots = BitVec.ofNat 9 (slotsOf p) := rfl
@[simp] theorem writeResults_nPilots (p : BitVec 7) (m : Int) (e : Bool) :
    (writeResults p m e s).nPilots = BitVec.ofNat 5 (nPilotsOf p) := rfl
@[simp] theorem writeResults_plframeLen (p : BitVec 7) (m : Int) (e : Bool) :
    (writeResults p m e s).plframeLen = BitVec.ofNat 16 (plframeLenOf p) := rfl
@[simp] theorem writeResults_decMetric (p : BitVec 7) (m : Int) (e : Bool) :
    (writeResults p m e s).decMetric = m := rfl
@[simp] theorem writeResults_decEffSoft (p : BitVec 7) (m : Int) (e : Bool) :
    (writeResults p m e s).decEffSoft = e := rfl
@[simp] theorem writeResults_decValid (p : BitVec 7) (m : Int) (e : Bool) :
    (writeResults p m e s).decValid = true := rfl
@[simp] theorem writeResults_soft (p : BitVec 7) (m : Int) (e : Bool) :
    (writeResults p m e s).soft = s.soft := rfl
@[simp] theorem writeResults_din (p : BitVec 7) (m : Int) (e : Bool) :
    (writeResults p m e s).din = s.din := rfl
@[simp] theorem writeResults_host (p : BitVec 7) (m : Int) (e : Bool) :
    (writeResults p m e s).host = s.host := rfl
@[simp] theorem writeResults_responses (p : BitVec 7) (m : Int) (e : Bool) :
    (writeResults p m e s).responses = s.responses := rfl
@[simp] theorem writeResults_draws (p : BitVec 7) (m : Int) (e : Bool) :
    (writeResults p m e s).draws = s.draws := rfl

/-! ## `finishDecode`: the result registers, `DEC_VALID`, the responses -/

@[simp] theorem finishDecode_params (p : BitVec 7) (m : Int) (e : Bool) :
    (finishDecode p m e s).params = s.params := by simp [finishDecode]
@[simp] theorem finishDecode_decPlsc (p : BitVec 7) (m : Int) (e : Bool) :
    (finishDecode p m e s).decPlsc = p := by simp [finishDecode]
@[simp] theorem finishDecode_modcod (p : BitVec 7) (m : Int) (e : Bool) :
    (finishDecode p m e s).modcod = modcodOf p := by simp [finishDecode]
@[simp] theorem finishDecode_shortFecframe (p : BitVec 7) (m : Int) (e : Bool) :
    (finishDecode p m e s).shortFecframe = shortOf p := by simp [finishDecode]
@[simp] theorem finishDecode_hasPilots (p : BitVec 7) (m : Int) (e : Bool) :
    (finishDecode p m e s).hasPilots = pilotsOf p := by simp [finishDecode]
@[simp] theorem finishDecode_dummyFrame (p : BitVec 7) (m : Int) (e : Bool) :
    (finishDecode p m e s).dummyFrame = dummyOf p := by simp [finishDecode]
@[simp] theorem finishDecode_nMod (p : BitVec 7) (m : Int) (e : Bool) :
    (finishDecode p m e s).nMod = BitVec.ofNat 3 (nModOf p) := by simp [finishDecode]
@[simp] theorem finishDecode_slots (p : BitVec 7) (m : Int) (e : Bool) :
    (finishDecode p m e s).slots = BitVec.ofNat 9 (slotsOf p) := by simp [finishDecode]
@[simp] theorem finishDecode_nPilots (p : BitVec 7) (m : Int) (e : Bool) :
    (finishDecode p m e s).nPilots = BitVec.ofNat 5 (nPilotsOf p) := by simp [finishDecode]
@[simp] theorem finishDecode_plframeLen (p : BitVec 7) (m : Int) (e : Bool) :
    (finishDecode p m e s).plframeLen = BitVec.ofNat 16 (plframeLenOf p) := by simp [finishDecode]
@[simp] theorem finishDecode_decMetric (p : BitVec 7) (m : Int) (e : Bool) :
    (finishDecode p m e s).decMetric = m := by simp [finishDecode]
@[simp] theorem finishDecode_decEffSoft (p : BitVec 7) (m : Int) (e : Bool) :
    (finishDecode p m e s).decEffSoft = e := by simp [finishDecode]
@[simp] theorem finishDecode_decValid (p : BitVec 7) (m : Int) (e : Bool) :
    (finishDecode p m e s).decValid = true := by simp [finishDecode]
@[simp] theorem finishDecode_soft (p : BitVec 7) (m : Int) (e : Bool) :
    (finishDecode p m e s).soft = s.soft := by simp [finishDecode]
@[simp] theorem finishDecode_din (p : BitVec 7) (m : Int) (e : Bool) :
    (finishDecode p m e s).din = s.din := by simp [finishDecode]
@[simp] theorem finishDecode_host (p : BitVec 7) (m : Int) (e : Bool) :
    (finishDecode p m e s).host = s.host := by simp [finishDecode]
@[simp] theorem finishDecode_responses (p : BitVec 7) (m : Int) (e : Bool) :
    (finishDecode p m e s).responses = s.responses ++ [⟨.ok, zext32 p, m, none⟩] := by simp [finishDecode]
@[simp] theorem finishDecode_draws (p : BitVec 7) (m : Int) (e : Bool) :
    (finishDecode p m e s).draws = s.draws := by simp [finishDecode]

end Sys2Proof.Machine
end

