-- ==== Sys2Proof/Laws/Ops.lean ====
section
/-! SUPPORT. One lemma per shared operation that says once what it does: words from bit sequences, sums, selection,
quarter turns, and the ports read as lists. -/

namespace Sys2Proof.Machine

/-! ## Words from bit sequences -/

theorem digitsToNat_lt (f : Nat → Bool) (n : Nat) : digitsToNat f n < 2 ^ n := by
  induction n with
  | zero => simp [digitsToNat]
  | succ n ih => cases h : f n <;> simp [digitsToNat, h] <;> omega

theorem digitsToNat_testBit (f : Nat → Bool) (n i : Nat) (h : i < n) :
    (digitsToNat f n).testBit (n - 1 - i) = f i := by
  induction n with
  | zero => omega
  | succ n ih =>
    rcases Nat.lt_succ_iff_lt_or_eq.mp h with hi | rfl
    · have hs : n + 1 - 1 - i = (n - 1 - i) + 1 := by omega
      have hd : digitsToNat f (n + 1) / 2 = digitsToNat f n := by
        cases hf : f n <;> simp [digitsToNat, hf]; omega
      rw [hs, Nat.testBit_succ, hd, ih hi]
    · cases hf : f i <;> simp [digitsToNat, hf, Nat.testBit_zero]

/-- The word built from a sequence holds it (00_scope.md R10). -/
theorem seq64_word64 (f : Nat → Bool) (i : Nat) (h : i < 64) : seq64 (word64 f) i = f i := by
  have ht := digitsToNat_testBit f 64 i h
  have hl := digitsToNat_lt f 64
  simp only [seq64, word64, BitVec.getMsbD, BitVec.getLsbD_ofNat, h, decide_true, Bool.true_and]
  rw [show 64 - 1 - i < 64 by omega |> decide_eq_true]
  simpa using ht

@[simp] theorem seq64_xor (a b : CodeWord) (i : Nat) : seq64 (a ^^^ b) i = (seq64 a i ^^ seq64 b i) := by
  simp [seq64]

@[simp] theorem seq32_xor (a b : InnerWord) (i : Nat) : seq32 (a ^^^ b) i = (seq32 a i ^^ seq32 b i) := by
  simp [seq32]

/-- Two words that hold the same sequence are equal. -/
theorem seq64_ext (a b : CodeWord) (h : ∀ i < 64, seq64 a i = seq64 b i) : a = b := by
  apply BitVec.eq_of_getMsbD_eq
  intro i hi
  exact h i hi

/-! ## Bits counted, sums -/

theorem popcountBelow_le {n : Nat} (w : BitVec n) (k : Nat) : popcountBelow w k ≤ k := by
  induction k with
  | zero => simp [popcountBelow]
  | succ k ih => cases h : w.getLsbD k <;> simp [popcountBelow, h] <;> omega

theorem popcount_le {n : Nat} (w : BitVec n) : popcount w ≤ n := popcountBelow_le w n

theorem popcountBelow_eq_sum {n : Nat} (w : BitVec n) (k : Nat) :
    popcountBelow w k = ∑ i ∈ Finset.range k, (w.getLsbD i).toNat := by
  induction k with
  | zero => simp [popcountBelow]
  | succ k ih => simp [popcountBelow, ih, Finset.sum_range_succ]

/-- `sumTo` is the library's finite sum. -/
theorem sumTo_eq_sum (f : Nat → Int) (n : Nat) : sumTo f n = ∑ i ∈ Finset.range n, f i := by
  induction n with
  | zero => simp [sumTo]
  | succ n ih => simp [sumTo, ih, Finset.sum_range_succ]

@[simp] theorem bipolar_false : bipolar false = 1 := rfl
@[simp] theorem bipolar_true : bipolar true = -1 := rfl

theorem bipolar_xor (a b : Bool) : bipolar (a ^^ b) = bipolar a * bipolar b := by
  cases a <;> cases b <;> simp

theorem bipolar_mul_self (a : Bool) : bipolar a * bipolar a = 1 := by cases a <;> simp

/-! ## Selection -/

/-- Everything `argminUpTo` says: a number in range, its value, no other value less, and no lesser number with the
same value (00_scope.md R12). -/
theorem argminUpTo_spec (n : Nat) (f : Nat → Int) :
    (argminUpTo n f).1 ≤ n ∧ (argminUpTo n f).2 = f (argminUpTo n f).1 ∧
      (∀ x ≤ n, (argminUpTo n f).2 ≤ f x) ∧ ∀ x < (argminUpTo n f).1, (argminUpTo n f).2 < f x := by
  unfold argminUpTo
  induction n with
  | zero => simp [selectLeast]
  | succ n ih =>
    rw [selectLeast]
    obtain ⟨hle, hv, hmin, hleast⟩ := ih
    generalize selectLeast (fun a b => decide (a < b)) f n = r at *
    obtain ⟨x, v⟩ := r
    simp only [decide_eq_true_eq] at *
    by_cases hb : f (n + 1) < v
    · simp only [hb, if_true]
      refine ⟨le_rfl, trivial, fun y hy => ?_, fun y hy => ?_⟩
      · rcases Nat.lt_or_ge y (n + 1) with h | h
        · have := hmin y (by omega); omega
        · rw [show y = n + 1 by omega]
      · have := hmin y (by omega); omega
    · simp only [hb, if_false]
      refine ⟨by omega, hv, fun y hy => ?_, hleast⟩
      rcases Nat.lt_or_ge y (n + 1) with h | h
      · exact hmin y (by omega)
      · rw [show y = n + 1 by omega]; omega

/-- Choosing the greatest value is choosing the least of the opposite values. -/
theorem argmaxUpTo_eq (n : Nat) (f : Nat → Int) :
    argmaxUpTo n f = ((argminUpTo n fun x => -f x).1, -(argminUpTo n fun x => -f x).2) := by
  unfold argmaxUpTo argminUpTo
  induction n with
  | zero => simp [selectLeast]
  | succ n ih =>
    rw [selectLeast, selectLeast, ih]
    generalize selectLeast (fun a b => decide (a < b)) (fun x => -f x) n = r
    obtain ⟨x, v⟩ := r
    have h : (-v < f (n + 1)) ↔ (-f (n + 1) < v) := by omega
    by_cases hb : -f (n + 1) < v <;> simp [h, hb]

/-- Everything `argmaxUpTo` says: a number in range, its value, no other value greater, and no lesser number with the
same value (00_scope.md R12). -/
theorem argmaxUpTo_spec (n : Nat) (f : Nat → Int) :
    (argmaxUpTo n f).1 ≤ n ∧ (argmaxUpTo n f).2 = f (argmaxUpTo n f).1 ∧
      (∀ x ≤ n, f x ≤ (argmaxUpTo n f).2) ∧ ∀ x < (argmaxUpTo n f).1, f x < (argmaxUpTo n f).2 := by
  obtain ⟨h1, h2, h3, h4⟩ := argminUpTo_spec n fun x => -f x
  rw [argmaxUpTo_eq]
  exact ⟨h1, by simp only; omega, fun x hx => by have := h3 x hx; simp only; omega,
    fun x hx => by have := h4 x hx; simp only; omega⟩

/-! ## Quarter turns -/

@[simp] theorem mulJ_zero (x : Sample) : mulJ 0 x = x := rfl

/-- Two quarter-turn counts add (00_scope.md R11). -/
theorem mulJ_mulJ (a b : Int) (x : Sample) : mulJ a (mulJ b x) = mulJ (a + b) x := by
  have ha : a % 4 = 0 ∨ a % 4 = 1 ∨ a % 4 = 2 ∨ a % 4 = 3 := by omega
  have hb : b % 4 = 0 ∨ b % 4 = 1 ∨ b % 4 = 2 ∨ b % 4 = 3 := by omega
  rcases ha with ha | ha | ha | ha <;> rcases hb with hb | hb | hb | hb <;>
    simp [mulJ, ha, hb, Int.add_emod]

theorem mulJ_scale (k a : Int) (x : Sample) : mulJ k (Sample.scale a x) = Sample.scale a (mulJ k x) := by
  have hk : k % 4 = 0 ∨ k % 4 = 1 ∨ k % 4 = 2 ∨ k % 4 = 3 := by omega
  rcases hk with hk | hk | hk | hk <;> simp [mulJ, hk, Sample.scale]

/-! ## Ports read by index -/

/-- Entry `i` of a scratch buffer that was just written (10_state.md R26). -/
theorem softAt_writeSoft (u : Nat → Int) (s : State) (i : Nat) (h : i < 64) : softAt (writeSoft u s).soft i = u i := by
  simp [softAt, h]

/-- Entry `i` of a window written out by a function (20_memory.md R40). -/
theorem dinAt_ofFn (f : Fin 65 → Sample) (i : Nat) (h : i < 65) : dinAt (Vector.ofFn f) i = f ⟨i, h⟩ := by
  simp [dinAt, h]

end Sys2Proof.Machine
end

