-- ==== Sys2Proof/Laws/PerInstr.lean ====
section
/-! SUPPORT. Statements made per instruction: the word of a command lies in the row of the opcode table that names it
(30_encoding.md R68). -/

namespace Sys2Proof.Laws.RowMatch

/-- The `mask` of a command's row (30_encoding.md R68). -/
def rowMask : Instr → CmdWord
  | .rm32Enc _ => 0xFFFFFFFFFFC0#48
  | .rm32Dech _ => 0xFFFF00000000#48
  | .rm32Decs => 0xFFFFFFFFFFFF#48
  | .plscEnc _ => 0xFFFFFFFFFF80#48
  | .plscEncp _ _ _ => 0xFFFFFFFFFF80#48
  | .plscDec _ _ => 0xF3FFFFFFFFFF#48

/-- The `match` of a command's row (30_encoding.md R68). -/
def rowMatch : Instr → CmdWord
  | .rm32Enc _ => 0x100000000000#48
  | .rm32Dech _ => 0x200000000000#48
  | .rm32Decs => 0x300000000000#48
  | .plscEnc _ => 0x400000000000#48
  | .plscEncp _ _ _ => 0x500000000000#48
  | .plscDec _ _ => 0x600000000000#48

/-- The word of `i` is a word of its own row: `CW & mask = match` (30_encoding.md R68). -/
def Statement (i : Instr) : Prop := encode i &&& rowMask i = rowMatch i

theorem rm32Enc (d : BitVec 6) : Statement (.rm32Enc d) := by
  unfold Statement
  revert d
  decide

theorem rm32Dech (w : BitVec 32) : Statement (.rm32Dech w) := by
  unfold Statement
  apply BitVec.eq_of_getLsbD_eq
  intro i hi
  have h : (0xFFFF00000000#48).getLsbD i = decide (32 ≤ i) := by revert i; decide
  by_cases h32 : i < 32
  · have hm : (0x200000000000#48).getLsbD i = false := by
      clear h hi; revert i; decide
    simp [rowMask, rowMatch, h, hm, show ¬ 32 ≤ i by omega]
  · have he : (encode (.rm32Dech w)).getLsbD i = (encode (.rm32Dech 0)).getLsbD i := by
      simp only [encode, mkWord, BitVec.getLsbD_append]
      simp [h32]
    have hz : encode (.rm32Dech 0) = 0x200000000000#48 := by decide
    rw [BitVec.getLsbD_and, he, hz]
    simp [rowMask, rowMatch, h, show 32 ≤ i by omega]

theorem rm32Decs : Statement .rm32Decs := by
  unfold Statement
  decide

theorem plscEnc (p : BitVec 7) : Statement (.plscEnc p) := by
  unfold Statement
  revert p
  decide

theorem plscEncp (modcod : BitVec 5) (short pilots : Bool) : Statement (.plscEncp modcod short pilots) := by
  unfold Statement
  revert modcod short pilots
  decide

theorem plscDec (c s : Bool) : Statement (.plscDec c s) := by
  unfold Statement
  revert c s
  decide

end Sys2Proof.Laws.RowMatch
end

