-- ==== Sys2Proof/Laws/Step.lean ====
section
/-! SUPPORT. What one command and one step can do, said once: the later proofs take their cases from here. -/

namespace Sys2Proof.Machine

/-- Two next states are the same. -/
theorem next_inj {σ φ ρ : Type} {s t : σ} (h : (Host.Outcome.next s : Host.Outcome σ φ ρ) = .next t) : s = t := by
  injection h

/-- What `PLSC.ENCP` answers: the error report, or the symbols of the packed value (41_plsc_encoder.md R119). -/
theorem execPlscEncp_cases {modcod : BitVec 5} {short pilots : Bool} {s t : State}
    (h : execPlscEncp modcod short pilots s = .next t) :
    (cfgInvalid modcod short pilots = true ∧ t = raise .invalidCfg s) ∨
      (cfgInvalid modcod short pilots = false ∧ t = encodePlsc (plscPack modcod short pilots) s) := by
  unfold execPlscEncp at h
  split at h
  · exact .inl ⟨‹_›, (next_inj h).symm⟩
  · rename_i hv
    exact .inr ⟨Bool.eq_false_iff.mpr hv, (next_inj h).symm⟩

/-- `PLSC.DEC` in the soft mode (42_plsc_decoder.md R136, R138, R139). -/
theorem execPlscDec_soft (s : State) :
    execPlscDec true true s =
      .next (decodeSoftBuffer (writeSoft (descrSoft (demapCoh s.params s.din)) s)) := by
  simp only [execPlscDec, effCoherent, effSoft, Bool.and_self, if_true]

/-- `PLSC.DEC` in the coherent hard mode (42_plsc_decoder.md R132, R135, R139). -/
theorem execPlscDec_hard (s : State) :
    execPlscDec true false s = .next (decodeHardWord (word64 fun i => hbit (demapCoh s.params s.din i)) s) := by
  simp only [execPlscDec, effCoherent, effSoft, Bool.and_false, Bool.false_eq_true, if_true, if_false]

/-- `PLSC.DEC` in the differential mode, whatever `S` is (42_plsc_decoder.md R130, R133, R139). -/
theorem execPlscDec_diff (sft : Bool) (s : State) :
    execPlscDec false sft s = .next (decodeHardWord (demapDiff s.params s.din) s) := by
  simp only [execPlscDec, effCoherent, Bool.false_eq_true, if_false]

/-- Every `PLSC.DEC` ends in one write of the result registers and one response, after a write of the scratch buffer
at most (42_plsc_decoder.md R139). -/
theorem execPlscDec_completes (c sft : Bool) (s : State) :
    ∃ (p : BitVec 7) (m : Int) (u : Vector Int 64),
      execPlscDec c sft s = .next (finishDecode p m (c && sft) { s with soft := u }) := by
  cases c with
  | false => exact ⟨_, _, s.soft, by rw [execPlscDec_diff, decodeHardWord, Bool.false_and]⟩
  | true =>
    cases sft with
    | false => exact ⟨_, _, s.soft, by rw [execPlscDec_hard, decodeHardWord, Bool.and_false]⟩
    | true => exact ⟨_, _, _, by rw [execPlscDec_soft, decodeSoftBuffer, writeSoft, Bool.and_true]⟩

/-- What `PLSC.DEC` can do: one write of the result registers, with a scratch buffer that is written first in the
soft mode only (42_plsc_decoder.md R139). -/
theorem execPlscDec_cases {c sft : Bool} {s t : State} (h : execPlscDec c sft s = .next t) :
    (c = true ∧ sft = true ∧ t = decodeSoftBuffer (writeSoft (descrSoft (demapCoh s.params s.din)) s)) ∨
      (c = true ∧ sft = false ∧ t = decodeHardWord (word64 fun i => hbit (demapCoh s.params s.din i)) s) ∨
      (c = false ∧ t = decodeHardWord (demapDiff s.params s.din) s) := by
  cases c <;> cases sft <;>
    simp only [execPlscDec, effCoherent, effSoft, Bool.and_true, Bool.and_false, Bool.and_self, if_true,
      Bool.false_eq_true, if_false] at h <;>
    simp [(next_inj h).symm]

/-- What one step can do when it answers a next state, guards included (30_encoding.md R61, 60_exceptions.md R182,
70_reset_and_hazards.md R200). -/
theorem step_cases {s t : State} (h : step s = .next t) :
    (s.host = [] ∧ t = s) ∨
      (∃ rest, s.host = .reset :: rest ∧ t = assertReset rest s) ∨
      (∃ cw din rest, s.host = .command cw din :: rest ∧ windowFits s.params.sw din = true ∧
        ((∃ i, decode cw = .ok i ∧ exec i (accept din rest s) = .next t) ∨
          (∃ e, decode cw = .error e ∧ t = raise .illegalCmd (accept din rest s)))) := by
  unfold step at h
  rcases hh : s.host with _ | ⟨e, rest⟩ <;> rw [hh] at h
  · exact .inl ⟨rfl, (next_inj h).symm⟩
  · cases e with
    | reset => exact .inr (.inl ⟨rest, rfl, (next_inj h).symm⟩)
    | commandOverlap => cases h
    | operandsNotHeld => cases h
    | command cw din =>
      refine .inr (.inr ⟨cw, din, rest, rfl, ?_⟩)
      simp only [takeEvent, presentCommand, performWord] at h
      by_cases hw : windowFits s.params.sw din = true
      · refine ⟨hw, ?_⟩
        rw [if_pos hw] at h
        rcases hd : decode cw with e | i <;> rw [hd] at h
        · exact .inr ⟨e, rfl, (next_inj h).symm⟩
        · exact .inl ⟨i, rfl, h⟩
      · rw [if_neg hw] at h
        cases h

/-- Performing a word always answers a next state with one response more, which depends on the parameters and the
window alone, and leaves the parameters and the host's list (10_state.md R29, R31; 30_encoding.md R61). -/
theorem performWord_response (cw : CmdWord) (s s' : State) (hp : s'.params = s.params) (hd : s'.din = s.din) :
    ∃ (r : Response) (t t' : State), performWord cw s = .next t ∧ performWord cw s' = .next t' ∧
      t.responses = s.responses ++ [r] ∧ t'.responses = s'.responses ++ [r] ∧ t.params = s.params ∧ t.host = s.host := by
  unfold performWord
  rcases decode cw with e | i
  · exact ⟨_, _, _, rfl, rfl, rfl, rfl, rfl, rfl⟩
  · cases i with
    | rm32Enc d => exact ⟨_, _, _, rfl, rfl, rfl, rfl, rfl, rfl⟩
    | rm32Dech w => exact ⟨_, _, _, rfl, rfl, rfl, rfl, rfl, rfl⟩
    | rm32Decs =>
      refine ⟨_, _, _, rfl, rfl, rfl, ?_, rfl, rfl⟩
      simp [hd]
    | plscEnc p =>
      refine ⟨_, _, _, rfl, rfl, rfl, ?_, rfl, rfl⟩
      simp [encodePlsc, hp]
    | plscEncp a b c =>
      simp only [exec, execPlscEncp]
      split
      · exact ⟨_, _, _, rfl, rfl, rfl, rfl, rfl, rfl⟩
      · refine ⟨_, _, _, rfl, rfl, rfl, ?_, rfl, rfl⟩
        simp [encodePlsc, hp]
    | plscDec c sft =>
      simp only [exec]
      cases c with
      | false =>
        simp only [execPlscDec_diff, decodeHardWord]
        refine ⟨_, _, _, rfl, rfl, by rw [finishDecode_responses], ?_, by simp, by simp⟩
        simp [hp, hd]
      | true =>
        cases sft with
        | false =>
          simp only [execPlscDec_hard, decodeHardWord]
          refine ⟨_, _, _, rfl, rfl, by rw [finishDecode_responses], ?_, by simp, by simp⟩
          simp [hp, hd]
        | true =>
          simp only [execPlscDec_soft, decodeSoftBuffer]
          refine ⟨_, _, _, rfl, rfl, by rw [finishDecode_responses, writeSoft_responses], ?_, by simp, by simp⟩
          simp [hp, hd, writeSoft]

end Sys2Proof.Machine
end

