-- ==== Sys2Proof/Tests/Slice0.lean ====
section
/-! SUPPORT. The model's own tests. Expected values come from spec/: the vectors V<n> of 95_test_vectors.md and the
examples of the rules named in each comment. The last part shows, for each statement with hypotheses, a concrete case
that meets them. -/

-- The kernel checks these theorems one after another, so that few of them hold memory at the same time.
set_option Elab.async false

namespace Sys2Proof.Machine.Test

/-! ## Helpers -/

/-- The next state, or `State.reset` where there is none. -/
def after (o : Host.Outcome State Fault Refusal) : State :=
  match o with
  | .next t => t
  | .fault _ => State.reset
  | .refused _ => State.reset

/-- `STATUS`, `RVAL`, `RMET` at the response port. -/
def answer (o : Host.Outcome State Fault Refusal) : Option (Status × Nat × Int) :=
  (after o).responsePort.map fun r => (r.status, r.rval.toNat, r.rmet)

/-- One step, from reset, on a presented word and window. -/
def present (cw : CmdWord) (w : Window) : Host.Outcome State Fault Refusal :=
  step { State.reset with host := [.command cw w] }

/-- A window whose entries `1 … 64` lie on the two axes in turn with amplitude 16384, negative where `signs` has a 1;
`onQ` says that entry 1 lies on the `Q` axis. -/
def axisWindow (first : Sample) (onQ : Bool) (signs : BitVec 64) : Window :=
  Vector.ofFn fun i =>
    if i.val = 0 then first
    else
      let a : Int := if signs.getMsbD (i.val - 1) then -16384 else 16384
      if (decide (i.val % 2 = 1) ^^ onQ) then ⟨a, 0⟩ else ⟨0, a⟩

/-- A window whose first 32 `I` components are given. -/
def iWindow (v : List Int) : Window := Vector.ofFn fun i => ⟨v.getD i.val 1000, -5⟩

/-- The symbols of V30 at `DIN[1..64]`, the entries marked in `e` negated. -/
def windowV30 (e : BitVec 64) : Window := axisWindow ⟨0, 0⟩ false (0x4DA1BFF59081EE39#64 ^^^ e)

/-- The window of V46. -/
def windowV46 : Window := axisWindow ⟨16384, 0⟩ true 0xD438D9930918885F#64

/-! ## Checks of WellFormed: an ill-formed term for each -/

theorem test_sample_i_too_large : Sample.fits 16 ⟨32768, 0⟩ = false := by decide
theorem test_sample_q_too_small : Sample.fits 16 ⟨0, -32769⟩ = false := by decide
theorem test_sample_extremes_fit : Sample.fits 16 ⟨-32768, 32767⟩ = true := by decide
theorem test_window_last_entry_checked :
    windowFits 16 (Vector.ofFn fun i => if i.val = 64 then ⟨0, 32768⟩ else ⟨0, 0⟩) = false := by decide +kernel
theorem test_symbols_checked : symbolsFit 16 (Vector.ofFn fun _ => ⟨40000, 0⟩) = false := by decide +kernel
theorem test_params_sw_too_small : Params.legal ⟨1, 1, false, false, false⟩ = false := by decide
theorem test_params_amp_zero : Params.legal ⟨16, 0, false, false, false⟩ = false := by decide
theorem test_params_amp_too_large : Params.legal ⟨16, 32768, false, false, false⟩ = false := by decide
theorem test_params_standard : Params.standard.legal = true := by decide

/-! ## Decoding: words written out from the fields of 30_encoding.md R60, R62, R63 -/

theorem test_decode_rm32Enc :
    decode 0b0001_0_0_0000000000_00000000000000000000000000_101010#48 = .ok (.rm32Enc 42#6) := by decide
theorem test_decode_rm32Dech :
    decode 0b0010_0_0_0000000000_01011010010110101010010110100101#48 = .ok (.rm32Dech 0x5A5AA5A5#32) := by decide
theorem test_decode_rm32Decs :
    decode 0b0011_0_0_0000000000_00000000000000000000000000000000#48 = .ok .rm32Decs := by decide
theorem test_decode_plscEnc :
    decode 0b0100_0_0_0000000000_0000000000000000000000000_0010001#48 = .ok (.plscEnc 17#7) := by decide
theorem test_decode_plscEncp :
    decode 0b0101_0_0_0000000000_0000000000000000000000000_01101_1_0#48 = .ok (.plscEncp 13#5 true false) := by decide
theorem test_decode_plscDec :
    decode 0b0110_1_0_0000000000_00000000000000000000000000000000#48 = .ok (.plscDec true false) := by decide

/-- V80 to V88: each kind of illegal word (30_encoding.md R64). -/
theorem test_decode_illegal :
    decode 0x000000000000#48 = .error .reservedOpcode ∧ decode 0x700000000000#48 = .error .reservedOpcode ∧
    decode 0xF00000000000#48 = .error .reservedOpcode ∧ decode 0x100000000040#48 = .error .unusedArgBit ∧
    decode 0x180000000000#48 = .error .flagOutsideDec ∧ decode 0x400100000000#48 = .error .reservedField ∧
    decode 0x400000000080#48 = .error .unusedArgBit ∧ decode 0x300000000001#48 = .error .unusedArgBit ∧
    decode 0x600000000001#48 = .error .unusedArgBit := by decide

theorem test_decodeTableWord : decodeTableWord 48 0x6C0000000000 = some (.plscDec true true) := by decide

/-! ## One step of each command -/

/-- V3. -/
theorem test_rm32Enc : answer (present 0x10000000002A#48 zeroWindow) = some (.ok, 0x5A5AA5A5, 0) := by decide +kernel
/-- V9: 7 errors. -/
theorem test_rm32Dech : answer (present 0x20005A5AA5DA#48 zeroWindow) = some (.ok, 42, 7) := by decide +kernel
/-- V10: a tie, the least dataword wins. -/
theorem test_rm32Dech_tie : answer (present 0x2000000000FF#48 zeroWindow) = some (.ok, 0, 8) := by decide +kernel
/-- V23. -/
theorem test_rm32Decs : answer (present 0x300000000000#48 (iWindow ([5, -3, 2, -7, 1, 1, -1, 4, -2, 6, -6, 3, 0, 0, 9, -9]
    ++ [2, 2, -2, -2, 7, -1, 3, -5, 8, -8, 1, -1, 4, -4, 6, -6]))) = some (.ok, 46, 71) := by decide +kernel
/-- V24: the most negative input everywhere. -/
theorem test_rm32Decs_extreme :
    answer (present 0x300000000000#48 (Vector.ofFn fun _ => ⟨-32768, 0⟩)) = some (.ok, 1, 1048576) := by decide +kernel
/-- V30: the signs of the 64 symbols of `PLSC.ENC p=0x11`, and the answer. -/
theorem test_plscEnc : (after (present 0x400000000011#48 zeroWindow)).responsePort =
    some ⟨.ok, 17#32, 0, some (Vector.ofFn fun i => dinAt (windowV30 0#64) (i.val + 1))⟩ := by decide +kernel
/-- V35. -/
theorem test_plscEncp : answer (present 0x500000000037#48 zeroWindow) = some (.ok, 55, 0) := by decide +kernel
/-- V38: rate 9/10 with a short FECFRAME. -/
theorem test_plscEncp_refused : (after (present 0x50000000002E#48 zeroWindow)).responsePort =
    some ⟨.invalidCfg, 0#32, 0, none⟩ := by decide +kernel
/-- V42b and program P1: three negated symbols, soft; `SOFT[0..7]` of P1's end state. -/
theorem test_plscDec_soft : let t := after (present 0x6C0000000000#48 (windowV30 0x8400000000800000#64))
    (t.decPlsc, t.decMetric, t.decEffSoft, t.plframeLen, t.soft.toList.take 8) =
      (17#7, 950272, true, 33282#16, [-16384, 16384, 16384, 16384, -16384, 16384, -16384, -16384]) := by decide +kernel
/-- V46: differential under a quarter turn, and the registers after it. -/
theorem test_plscDec_differential : let t := after (present 0x600000000000#48 windowV46)
    (t.decPlsc, t.decMetric, t.modcod, t.shortFecframe, t.hasPilots, t.dummyFrame) =
      (55#7, 0, 13#5, true, true, false) ∧
    (t.nMod, t.slots, t.nPilots, t.plframeLen, t.decEffSoft, t.decValid) =
      (3#3, 60#9, 3#5, 5598#16, false, true) := by decide +kernel
/-- V47b: the coherent hard mode on the same window sees only zeros (42_plsc_decoder.md R139, corner cases). -/
theorem test_plscDec_hard_zeros :
    answer (present 0x680000000000#48 windowV46) = some (.ok, 53, 20) := by decide +kernel
/-- Section 6, the zero window with `LAYOUT_ADJ` and `ROT_ALT` true, differential. -/
theorem test_plscDec_other_configuration :
    answer (exec (.plscDec false false) { State.reset with params := ⟨16, 16384, true, true, true⟩ }) =
      some (.ok, 46, 20) := by decide +kernel
/-- V91: legality is tested before the triple. -/
theorem test_illegal_first : answer (present 0x500100000074#48 zeroWindow) = some (.illegalCmd, 0, 0) := by decide +kernel
/-- A window the port cannot carry is refused (93_implementation_defined.md U12). -/
theorem test_window_refused : (match present 0x300000000000#48 (iWindow [32768]) with
    | .refused .sampleOutOfRange => true
    | _ => false) = true := by decide +kernel
/-- 41_plsc_encoder.md R115, the four reference symbols. -/
theorem test_sofRef : sofRef ⟨16, 16384, false, false, false⟩ = ⟨0, -16384⟩ ∧
    sofRef ⟨16, 16384, false, true, false⟩ = ⟨0, 16384⟩ ∧
    sofRef ⟨16, 16384, false, false, true⟩ = ⟨16384, -16384⟩ ∧
    sofRef ⟨16, 16384, false, true, true⟩ = ⟨-16384, 16384⟩ := by decide

/-! ## A concrete case for the hypotheses of each statement -/

theorem witness_Rm32DechCorrectsUpToSevenErrors : popcount (0x5A5AA5DA#32 ^^^ enc32 42#6) = 7 := by decide +kernel

theorem witness_Rm32DecsReadsOnlyThirtyTwoComponents :
    let s := { State.reset with din := iWindow [3, -4] }
    let s' := { State.reset with
      din := Vector.ofFn fun i => if i.val < 32 then ⟨(dinAt s.din i.val).i, 77⟩ else ⟨8, 8⟩ }
    s'.din ≠ s.din ∧ ∀ j < 32, (dinAt s'.din j).i = (dinAt s.din j).i := by decide +kernel

theorem witness_SoftAndHardInnerDecodingAgree :
    let s := { State.reset with din := Vector.ofFn fun i => ⟨3 * (if (0xFF#32).getMsbD i.val then -1 else 1), 0⟩ }
    (0 : Int) < 3 ∧ ∀ j < 32, (dinAt s.din j).i = 3 * (if (0xFF#32).getMsbD j then -1 else 1) := by decide +kernel

theorem witness_PlscEncpEncodesAnAcceptedTriple :
    ¬ refusedTriple 28#5 false ∧ ¬ refusedTriple 0#5 true ∧ ¬ refusedTriple 12#5 true := by
  unfold refusedTriple
  decide +kernel

theorem witness_PlscEncpReportsARefusedTriple :
    refusedTriple 29#5 false ∧ refusedTriple 30#5 false ∧ refusedTriple 31#5 true ∧ refusedTriple 11#5 true ∧
      refusedTriple 17#5 true ∧ refusedTriple 23#5 true ∧ refusedTriple 28#5 true := by
  unfold refusedTriple
  decide +kernel

theorem witness_ReservedModcodsAreDecodedAndEncodedRaw :
    116 ≤ (116#7).toNat ∧ ¬ 116 ≤ (115#7).toNat := by decide

theorem witness_DecodeMetricStaysInItsRange :
    2 ≤ State.reset.params.sw ∧ windowFits 16 (Vector.ofFn fun _ => ⟨-32768, 32767⟩) = true := by decide +kernel

/-- The symbols of `PLSC.ENC p=17` in the default configuration. -/
def symbols17 : Symbols := mapWord Params.standard (scramble (enc64 false 17#7))

/-- Those symbols behind `first`, the ones marked in `e` negated, all turned by `j^k`. -/
def window17 (first : Sample) (e : CodeWord) (k : Int) : Window :=
  Vector.ofFn fun i =>
    if i.val = 0 then first
    else Sample.scale (if e.getMsbD (i.val - 1) then -1 else 1) (mulJ k ((symbols17[i.val - 1]?).getD ⟨0, 0⟩))

theorem encodesTo_symbols17 : encodesTo State.reset 17#7 symbols17 := by
  simp only [encodesTo, exec, execPlscEnc, encodePlsc, finish, respond, symbols17, zext32]
  rfl

/-- The bound of 15 negated symbols, met exactly. -/
theorem witness_CoherentHardDecodeRecoversTheValue :
    let e : CodeWord := 0xFFFE000000000000#64
    1 ≤ State.reset.params.amp ∧ encodesTo State.reset 17#7 symbols17 ∧
      carries (window17 ⟨5, 6⟩ e 0) symbols17 e 0 ∧ popcount e = 15 := by
  refine ⟨by decide, encodesTo_symbols17, ?_, by decide +kernel⟩
  unfold carries
  decide +kernel

theorem witness_CoherentSoftDecodeRecoversTheValue :
    let e : CodeWord := 0#64
    1 ≤ State.reset.params.amp ∧ encodesTo State.reset 17#7 symbols17 ∧
      carries (window17 ⟨0, 0⟩ e 0) symbols17 e 0 ∧ popcount e ≤ 15 := by
  refine ⟨by decide, encodesTo_symbols17, ?_, by decide +kernel⟩
  unfold carries
  decide +kernel

theorem witness_DifferentialDecodeRecoversTheValue :
    let e : CodeWord := 0x0100000000000001#64
    let w := window17 (mulJ 3 (sofRef State.reset.params)) e 3
    1 ≤ State.reset.params.amp ∧ encodesTo State.reset 17#7 symbols17 ∧ carries w symbols17 e 3 ∧
      dinAt w 0 = mulJ 3 (sofRef State.reset.params) ∧ popcount e ≤ 15 := by
  refine ⟨by decide, encodesTo_symbols17, ?_, by decide +kernel, by decide +kernel⟩
  unfold carries
  decide +kernel

theorem witness_InvertedStartOfFrameFlipsTheShortFlag :
    let w := window17 (mulJ (1 + 2) (sofRef State.reset.params)) 0#64 1
    1 ≤ State.reset.params.amp ∧ encodesTo State.reset 17#7 symbols17 ∧ carries w symbols17 0#64 1 ∧
      dinAt w 0 = mulJ (1 + 2) (sofRef State.reset.params) := by
  refine ⟨by decide, encodesTo_symbols17, ?_, by decide +kernel⟩
  unfold carries
  decide +kernel

theorem witness_ScalingTheWindowScalesSoftAndItsMetricOnly :
    let w := Vector.ofFn fun i => Sample.scale 2 (dinAt windowV46 i.val)
    (0 : Int) < 2 ∧ ∀ i < 65, dinAt w i = Sample.scale 2 (dinAt windowV46 i) := by decide +kernel

theorem witness_QuarterTurnsAreInvisibleToDifferentialDecoding :
    let w := Vector.ofFn fun i => mulJ 3 (dinAt windowV46 i.val)
    w ≠ windowV46 ∧ ∀ i < 65, dinAt w i = mulJ 3 (dinAt windowV46 i) := by decide +kernel

theorem witness_CoherentDecodingIgnoresTheFirstSample :
    let w := Vector.ofFn fun i => if i.val = 0 then ⟨-9, 9⟩ else dinAt windowV46 i.val
    w ≠ windowV46 ∧ ∀ i < 64, dinAt w (i + 1) = dinAt windowV46 (i + 1) := by decide +kernel

/-- Two states with the same parameters and window and different registers. -/
theorem witness_PlscDecLeavesNoHistory :
    let s' := { State.reset with decPlsc := 99#7, decValid := true, decMetric := 12 }
    s' ≠ State.reset ∧ s'.params = State.reset.params ∧ s'.din = State.reset.din := by decide +kernel

theorem witness_OnlyPlscDecWritesState : ∀ c sft, Instr.rm32Decs ≠ .plscDec c sft := by decide

theorem witness_PortsShowTheLastDecode : ∀ c sft, Instr.plscEncp 29#5 true true ≠ .plscDec c sft := by decide

theorem witness_EncodeOfDecodeIsTheWord : decode 0x640000000000#48 = .ok (.plscDec false true) := by decide

theorem witness_AStepRunsTheDecodedCommand :
    let s := { State.reset with host := [.command 0x680000000000#48 windowV46, .reset] }
    s.host = .command 0x680000000000#48 windowV46 :: [.reset] ∧ windowFits s.params.sw windowV46 = true ∧
      decode 0x680000000000#48 = .ok (.plscDec true false) := by decide +kernel

/-- Each of the four reasons is met. -/
theorem witness_AnIllegalWordIsReportedAndWritesNothing :
    windowFits State.reset.params.sw zeroWindow = true ∧ decode 0x000000000000#48 = .error .reservedOpcode ∧
      decode 0x600200000000#48 = .error .reservedField ∧ decode 0x140000000000#48 = .error .flagOutsideDec ∧
      decode 0x600000000001#48 = .error .unusedArgBit := by decide +kernel

/-- Both cases of the conclusion: the reserved field zero and not zero. -/
theorem witness_LegalityIsTestedBeforeTheTriple :
    refusedTriple 29#5 false ∧ windowFits State.reset.params.sw zeroWindow = true ∧
      (0x5#4 ++ 0#2 ++ 1#10 ++ 0#25 ++ 29#5 ++ BitVec.ofBool false ++ BitVec.ofBool false : CmdWord)
        = 0x500100000074#48 ∧
      (0x5#4 ++ 0#2 ++ 0#10 ++ 0#25 ++ 29#5 ++ BitVec.ofBool false ++ BitVec.ofBool false : CmdWord)
        = 0x500000000074#48 := by
  unfold refusedTriple
  decide +kernel

/-- An idle host, and a host that presents a command. -/
theorem witness_EachPresentedCommandGetsOneResponse :
    State.reset.host = [] ∧
      (State.reset.withFetchWord 48 0x700000000000).host = .command 0x700000000000#48 zeroWindow :: [] ∧
      windowFits State.reset.params.sw zeroWindow = true := by decide +kernel

theorem witness_ResetClearsDecValidAndTheResponse :
    ({ State.reset with decValid := true, host := [.reset, .reset] } : State).host = .reset :: [.reset] := by
  decide +kernel

/-- Both sides of both clauses: a broken contract, a kept one, and an idle host. -/
theorem witness_AStepIsRefusedExactlyWhenTheHostBreaksItsContract :
    HostEvent.commandOverlap.keepsContract Params.standard = false ∧
      HostEvent.operandsNotHeld.keepsContract Params.standard = false ∧
      (HostEvent.command 0#48 (iWindow [32768])).keepsContract Params.standard = false ∧
      (HostEvent.command 0#48 zeroWindow).keepsContract Params.standard = true ∧
      HostEvent.reset.keepsContract Params.standard = true := by decide +kernel

/-- A step that sets `DEC_VALID`, one that clears it, one that keeps it. -/
theorem witness_DecValidIsSetByPlscDecAndClearedByResetOnly :
    (after (present 0x600000000000#48 zeroWindow)).decValid = true ∧
      (after (step { State.reset with decValid := true, host := [.reset] })).decValid = false ∧
      (after (step { State.reset with decValid := true, host := [.command 0#48 zeroWindow] })).decValid = true := by
  decide +kernel

/-- A state that meets the invariant and takes a step that writes every register. -/
theorem witness_EveryStepKeepsTheInvariant :
    let s := { State.reset with host := [.command 0x6C0000000000#48 zeroWindow] }
    s.inv = true ∧ (after (step s)).decValid = true := by decide +kernel

theorem witness_ARunNeverStopsWhileTheHostKeepsItsContract :
    ({ State.reset with host := [.command 0#48 zeroWindow, .reset, .command 0x300000000000#48 windowV46] } :
      State).hostKeepsContract = true := by decide +kernel

theorem witness_EveryPresentedCommandIsAnswered :
    let s := { State.reset with host := [.command 0#48 zeroWindow, .command 0x300000000000#48 windowV46] }
    s.hostKeepsContract = true ∧ .reset ∉ s.host ∧
      s.host[1]? = some (.command 0x300000000000#48 windowV46) := by decide +kernel

/-- Two commands neither of which is a `PLSC.DEC`: an illegal word and an `RM32.ENC`. -/
def quietHost : State :=
  { State.reset with host := [.command 0x600000000001#48 zeroWindow, .command 0x10000000002A#48 zeroWindow] }

/-- Whether an outcome is a next state. -/
def goesOn {σ φ ρ : Type} : Host.Outcome σ φ ρ → Bool
  | .next _ => true
  | .fault _ => false
  | .refused _ => false

theorem exists_next_of_goesOn {σ φ ρ : Type} (o : Host.Outcome σ φ ρ) (h : goesOn o = true) : ∃ t, o = .next t := by
  cases o with
  | next t => exact ⟨t, by simp only⟩
  | fault r => simp [goesOn] at h
  | refused r => simp [goesOn] at h

/-- A run of two steps in which neither a `PLSC.DEC` nor a reset is left to do. -/
theorem witness_ResultsStayUntilTheNextDecodeOrReset :
    .reset ∉ quietHost.host ∧
      (∀ cw din c sft, HostEvent.command cw din ∈ quietHost.host → decode cw ≠ .ok (.plscDec c sft)) ∧
      ∃ t, Host.Core.run Sys2Proof.core 2 quietHost = .next t := by
  refine ⟨by decide +kernel, ?_, exists_next_of_goesOn _ (by decide +kernel)⟩
  intro cw din c sft h
  simp only [quietHost, List.mem_cons, HostEvent.command.injEq, List.not_mem_nil, or_false] at h
  rcases h with ⟨rfl, -⟩ | ⟨rfl, -⟩
  · have : decode 0x600000000001#48 = .error .unusedArgBit := by decide
    rw [this]
    simp
  · have : decode 0x10000000002A#48 = .ok (.rm32Enc 42#6) := by decide
    rw [this]
    simp

end Sys2Proof.Machine.Test
end

/-! # The decoder and the encoder (30_encoding.md)

The five fields of a word, the must-be-zero checks, `decode` and `encode` as inverses, and the illegal words of R64. -/

section

namespace Sys2Proof

/-! ## The fields of a word (30_encoding.md R60) -/

/-- A bit of `ARG` is the bit of the word with the same number. -/
theorem cwArg_getLsbD (cw : CmdWord) {k : Nat} (hk : k < 32) : (cwArg cw).getLsbD k = cw.getLsbD k := by
  rw [cwArg, BitVec.getLsbD_extractLsb', decide_eq_true hk, Bool.true_and, Nat.zero_add]

/-- Where each bit of a word comes from. -/
theorem mkWord_getLsbD (op : BitVec 4) (c s : Bool) (arg : BitVec 32) (k : Nat) :
    (mkWord op c s arg).getLsbD k =
      if k < 32 then arg.getLsbD k
      else if k < 42 then false
      else if k = 42 then s
      else if k = 43 then c
      else op.getLsbD (k - 44) := by
  change (op ++ BitVec.ofBool c ++ BitVec.ofBool s ++ 0#10 ++ arg : BitVec (4 + 1 + 1 + 10 + 32)).getLsbD k = _
  simp only [BitVec.getLsbD_append, BitVec.getLsbD_ofBool, BitVec.getLsbD_zero, Nat.sub_sub]
  grind

@[simp] theorem cwOp_mkWord (op : BitVec 4) (c s : Bool) (arg : BitVec 32) : cwOp (mkWord op c s arg) = op := by
  apply BitVec.eq_of_getLsbD_eq
  intro k hk
  rw [cwOp, BitVec.getLsbD_extractLsb', mkWord_getLsbD]
  grind

@[simp] theorem cwC_mkWord (op : BitVec 4) (c s : Bool) (arg : BitVec 32) : cwC (mkWord op c s arg) = c := by
  rw [cwC, mkWord_getLsbD]
  simp

@[simp] theorem cwS_mkWord (op : BitVec 4) (c s : Bool) (arg : BitVec 32) : cwS (mkWord op c s arg) = s := by
  rw [cwS, mkWord_getLsbD]
  simp

@[simp] theorem cwRsv_mkWord (op : BitVec 4) (c s : Bool) (arg : BitVec 32) : cwRsv (mkWord op c s arg) = 0#10 := by
  apply BitVec.eq_of_getLsbD_eq
  intro k hk
  rw [cwRsv, BitVec.getLsbD_extractLsb', mkWord_getLsbD]
  grind

@[simp] theorem cwArg_mkWord (op : BitVec 4) (c s : Bool) (arg : BitVec 32) : cwArg (mkWord op c s arg) = arg := by
  apply BitVec.eq_of_getLsbD_eq
  intro k hk
  rw [cwArg_getLsbD _ hk, mkWord_getLsbD, if_pos hk]

/-- A word whose `RSV` is 0 is made of its other four fields. -/
theorem mkWord_fields (cw : CmdWord) (hrsv : cwRsv cw = 0#10) :
    mkWord (cwOp cw) (cwC cw) (cwS cw) (cwArg cw) = cw := by
  apply BitVec.eq_of_getLsbD_eq
  intro k hk
  rw [mkWord_getLsbD]
  split_ifs with harg hr hs hc
  · exact cwArg_getLsbD cw harg
  · have hbit : (cwRsv cw).getLsbD (k - 32) = cw.getLsbD k := by
      simp [cwRsv, show k - 32 < 10 by omega, show 32 + (k - 32) = k by omega]
    rw [← hbit, hrsv, BitVec.getLsbD_zero]
  · rw [hs, cwS]
  · rw [hc, cwC]
  · simp [cwOp, show k - 44 < 4 by omega, show 44 + (k - 44) = k by omega]

/-! ## Operands in `ARG` (30_encoding.md R63) -/

/-- Nothing is left after the low `n` bits are shifted out exactly when every bit from `n` up is 0. -/
theorem ushiftRight_eq_zero_iff {w : Nat} (x : BitVec w) (n : Nat) :
    x >>> n = 0#w ↔ ∀ k, n ≤ k → k < w → x.getLsbD k = false := by
  constructor
  · intro h k hn _
    have hbit : (x >>> n).getLsbD (k - n) = x.getLsbD k := by
      rw [BitVec.getLsbD_ushiftRight, Nat.add_sub_cancel' hn]
    rw [← hbit, h, BitVec.getLsbD_zero]
  · intro h
    apply BitVec.eq_of_getLsbD_eq
    intro k _
    rw [BitVec.getLsbD_ushiftRight, BitVec.getLsbD_zero]
    by_cases hw : n + k < w
    · exact h (n + k) (Nat.le_add_right n k) hw
    · exact BitVec.getLsbD_of_ge x _ (Nat.le_of_not_lt hw)

/-- An operand in the low `n` bits of an `ARG` with no other bit set is the whole of it. -/
theorem setWidth_extractLsb'_of_ushiftRight_eq_zero {w n : Nat} {x : BitVec w} (h : x >>> n = 0#w) :
    (x.extractLsb' 0 n).setWidth w = x := by
  apply BitVec.eq_of_getLsbD_eq
  intro k hk
  rw [BitVec.getLsbD_setWidth, BitVec.getLsbD_extractLsb', Nat.zero_add, decide_eq_true hk, Bool.true_and]
  by_cases hn : k < n
  · rw [decide_eq_true hn, Bool.true_and]
  · rw [decide_eq_false hn, Bool.false_and, (ushiftRight_eq_zero_iff x n).mp h k (Nat.le_of_not_lt hn) hk]

/-- What the decoder reads from the low `n` bits is the operand the encoder put there. -/
theorem extractLsb'_setWidth_self {n w : Nat} (d : BitVec n) (h : n ≤ w) : (d.setWidth w).extractLsb' 0 n = d := by
  apply BitVec.eq_of_getLsbD_eq
  intro k hk
  simp [hk, Nat.lt_of_lt_of_le hk h]

/-- The encoder leaves the bits above an operand 0. -/
theorem setWidth_ushiftRight_self {n w : Nat} (d : BitVec n) : d.setWidth w >>> n = 0#w := by
  rw [ushiftRight_eq_zero_iff]
  intro k hn _
  rw [BitVec.getLsbD_setWidth, BitVec.getLsbD_of_ge d k hn, Bool.and_false]

/-- The three operands of `PLSC.ENCP` lie in `ARG[6:0]` side by side. -/
theorem append_plscEncp_operands (x : BitVec 32) :
    0#25 ++ x.extractLsb' 2 5 ++ BitVec.ofBool (x.getLsbD 1) ++ BitVec.ofBool (x.getLsbD 0) =
      (x.extractLsb' 0 7).setWidth 32 := by
  apply BitVec.eq_of_getLsbD_eq
  intro k hk
  simp only [BitVec.getLsbD_append, BitVec.getLsbD_ofBool, BitVec.getLsbD_zero, BitVec.getLsbD_setWidth,
    BitVec.getLsbD_extractLsb', Nat.sub_sub]
  grind

/-! ## The must-be-zero checks (30_encoding.md R64) -/

/-- The checks let a word through exactly when all three fields are clear, and then answer the command they were
given. -/
theorem checkFields_eq_ok_iff {cw : CmdWord} {flags : Bool} {n : Nat} {i j : Instr} :
    checkFields cw flags n i = .ok j ↔
      cwRsv cw = 0#10 ∧ (flags = false → cwC cw = false ∧ cwS cw = false) ∧ cwArg cw >>> n = 0#32 ∧ i = j := by
  unfold checkFields
  split_ifs <;> grind

/-- The checks stop a word exactly when one of the three fields is not clear. -/
theorem exists_checkFields_eq_error_iff {cw : CmdWord} {flags : Bool} {n : Nat} {i : Instr} :
    (∃ e, checkFields cw flags n i = .error e) ↔
      cwRsv cw ≠ 0#10 ∨ ((cwC cw = true ∨ cwS cw = true) ∧ flags = false) ∨
        ∃ k, n ≤ k ∧ k < 32 ∧ cw.getLsbD k = true := by
  have harg : (∃ k, n ≤ k ∧ k < 32 ∧ cw.getLsbD k = true) ↔ cwArg cw >>> n ≠ 0#32 := by
    rw [Ne, ushiftRight_eq_zero_iff]
    grind [cwArg_getLsbD]
  rw [harg]
  unfold checkFields
  split_ifs <;> grind

/-! ## The opcode map (30_encoding.md R62) -/

/-- How many low bits of `ARG` the command of an opcode uses (30_encoding.md R63). -/
def usedArgBits (op : Nat) : Nat :=
  if op = 1 then 6 else if op = 2 then 32 else if op = 4 ∨ op = 5 then 7 else 0

/-- An opcode that names no command is rejected by that name (30_encoding.md R62, R64). -/
theorem decode_of_reserved_opcode {cw : CmdWord} (h : (cwOp cw).toNat = 0 ∨ 7 ≤ (cwOp cw).toNat) :
    decode cw = .error .reservedOpcode := by
  unfold decode
  split
  case h_7 => rfl
  all_goals omega

/-- A word whose opcode names a command is decoded by the must-be-zero checks of that command. -/
theorem decode_of_command_opcode {cw : CmdWord} (h : ¬((cwOp cw).toNat = 0 ∨ 7 ≤ (cwOp cw).toNat)) :
    ∃ i, decode cw = checkFields cw (decide ((cwOp cw).toNat = 6)) (usedArgBits (cwOp cw).toNat) i := by
  unfold decode
  split
  case h_7 => grind
  all_goals
    rename_i hop
    rw [hop]
    exact ⟨_, rfl⟩

/-! ## `decode` and `encode` are inverse to each other -/

/-- A command is what the decoder reads from its word. -/
theorem decode_encode (i : Instr) : decode (encode i) = .ok i := by
  cases i with
  | rm32Enc d => simp [encode, decode, checkFields_eq_ok_iff, extractLsb'_setWidth_self, setWidth_ushiftRight_self]
  | rm32Dech w => simp [encode, decode, checkFields_eq_ok_iff, BitVec.ushiftRight_eq_zero]
  | rm32Decs => simp [encode, decode, checkFields_eq_ok_iff]
  | plscEnc p => simp [encode, decode, checkFields_eq_ok_iff, extractLsb'_setWidth_self, setWidth_ushiftRight_self]
  | plscEncp modcod short pilots => revert modcod short pilots; decide
  | plscDec c s => simp [encode, decode, checkFields_eq_ok_iff]

/-- Different commands have different words. -/
theorem encode_injective : Function.Injective encode := by
  intro i j hij
  have hok : (Except.ok i : Except IllegalWord Instr) = .ok j := by
    rw [← decode_encode i, hij, decode_encode j]
  exact Except.ok.inj hok

/-- A word whose fields are those of a command's word is that word. -/
theorem mkWord_eq_of_fields {cw : CmdWord} {op : BitVec 4} {c s : Bool} {arg : BitVec 32}
    (hop : (cwOp cw).toNat = op.toNat) (hrsv : cwRsv cw = 0#10) (hc : cwC cw = c) (hs : cwS cw = s)
    (harg : arg = cwArg cw) : mkWord op c s arg = cw := by
  rw [← BitVec.eq_of_toNat_eq hop, ← hc, ← hs, harg, mkWord_fields cw hrsv]

/-- A word is the word of the command the decoder reads from it. -/
theorem encode_of_decode_eq_ok {cw : CmdWord} {i : Instr} (h : decode cw = .ok i) : encode i = cw := by
  unfold decode at h
  split at h
  case h_7 => cases h
  all_goals
    rename_i hop
    obtain ⟨hrsv, hflags, hzero, rfl⟩ := checkFields_eq_ok_iff.mp h
  case h_1 | h_4 =>
    exact mkWord_eq_of_fields hop hrsv (hflags rfl).1 (hflags rfl).2
      (setWidth_extractLsb'_of_ushiftRight_eq_zero hzero)
  case h_2 => exact mkWord_eq_of_fields hop hrsv (hflags rfl).1 (hflags rfl).2 rfl
  case h_3 => exact mkWord_eq_of_fields hop hrsv (hflags rfl).1 (hflags rfl).2 hzero.symm
  case h_5 =>
    exact mkWord_eq_of_fields hop hrsv (hflags rfl).1 (hflags rfl).2
      ((append_plscEncp_operands _).trans (setWidth_extractLsb'_of_ushiftRight_eq_zero hzero))
  case h_6 => exact mkWord_eq_of_fields hop hrsv rfl rfl hzero.symm

/-- A legal word is the word of one command and of no other. -/
theorem existsUnique_encode_eq {cw : CmdWord} {i : Instr} (h : decode cw = .ok i) : ∃! j, encode j = cw :=
  ⟨i, encode_of_decode_eq_ok h, fun _ hj => encode_injective (hj.trans (encode_of_decode_eq_ok h).symm)⟩

/-! ## Illegal words (30_encoding.md R64) -/

/-- The four ways in which a word is illegal, and no other. -/
theorem exists_decode_eq_error_iff (cw : CmdWord) :
    (∃ e, decode cw = .error e) ↔
      (cwOp cw).toNat = 0 ∨ 7 ≤ (cwOp cw).toNat ∨ cwRsv cw ≠ 0#10 ∨
        ((cwC cw = true ∨ cwS cw = true) ∧ (cwOp cw).toNat ≠ 6) ∨
          ∃ k, usedArgBits (cwOp cw).toNat ≤ k ∧ k < 32 ∧ cw.getLsbD k = true := by
  by_cases hop : (cwOp cw).toNat = 0 ∨ 7 ≤ (cwOp cw).toNat
  · exact iff_of_true ⟨_, decode_of_reserved_opcode hop⟩ (or_assoc.mp (.inl hop))
  · obtain ⟨i, hi⟩ := decode_of_command_opcode hop
    rw [hi, exists_checkFields_eq_error_iff, decide_eq_false_iff_not, ← or_assoc (a := _ = 0), or_iff_right hop]

end Sys2Proof

namespace Sys2Proof.Machine

/-- An illegal word is answered with the error report, before anything is written (60_exceptions.md R182). -/
theorem performWord_of_decode_eq_error {cw : CmdWord} {e : IllegalWord} (h : decode cw = .error e) (s : State) :
    performWord cw s = .next (raise .illegalCmd s) := by
  rw [performWord, h]

/-- Settles O39: the opcode either names no command, or `decode` is the must-be-zero checks of the command it names;
a word that is not rejected is the word of what was decoded, and `encode` is injective. -/
theorem illegalWordsAreExactlyThoseOfTheSpec : Obligations.IllegalWordsAreExactlyThoseOfTheSpec := by
  unfold Obligations.IllegalWordsAreExactlyThoseOfTheSpec
  intro cw
  refine ⟨exists_decode_eq_error_iff cw, fun e s h => performWord_of_decode_eq_error h s, ?_⟩
  cases h : decode cw with
  | error e => exact .inl ⟨e, rfl⟩
  | ok i => exact .inr (existsUnique_encode_eq h)

end Sys2Proof.Machine
end

/-! # The block codec (40_rm_codec.md)

What the selection over all datawords finds, the answers of `RM32.ENC`, `RM32.DECH` and `RM32.DECS`, and the doubling
rule of the (64,7) code. -/

section

namespace Sys2Proof

/-- A word with `RSV`, `C` and `S` clear is its opcode and its `ARG` in their places (30_encoding.md R60). -/
theorem mkWord_false_false_eq_or (op : BitVec 4) (arg : BitVec 32) :
    mkWord op false false arg = op.setWidth 48 <<< 44 ||| arg.setWidth 48 := by
  apply BitVec.eq_of_getLsbD_eq
  intro k hk
  rw [mkWord_getLsbD, BitVec.getLsbD_or, BitVec.getLsbD_shiftLeft, BitVec.getLsbD_setWidth, BitVec.getLsbD_setWidth]
  grind

/-- The word of `RM32.ENC d` has `d` in its low six bits (30_encoding.md R62, R63). -/
theorem encode_rm32Enc_eq_or (d : BitVec 6) :
    encode (.rm32Enc d) = 0x100000000000#48 ||| d.setWidth 48 := by
  rw [encode, mkWord_false_false_eq_or, BitVec.setWidth_setWidth (by decide)]
  rfl

end Sys2Proof

namespace Sys2Proof.Machine

/-! ## What a command of the codec answers (40_rm_codec.md R95 to R97) -/

/-- A command that was performed adds one response and changes nothing else (60_exceptions.md R180). -/
theorem finish_eq (rval : BitVec 32) (rmet : Int) (dout : Option Symbols) (s : State) :
    finish rval rmet dout s = { s with responses := s.responses ++ [⟨.ok, rval, rmet, dout⟩] } :=
  rfl

theorem exec_rm32Enc (d : BitVec 6) (s : State) : exec (.rm32Enc d) s = .next (finish (enc32 d) 0 none s) :=
  rfl

theorem exec_rm32Dech (w : BitVec 32) (s : State) :
    exec (.rm32Dech w) s = .next (finish (zext32 (dech32 w).1) (dech32 w).2 none s) :=
  rfl

theorem exec_rm32Decs (s : State) :
    exec .rm32Decs s =
      .next (finish (zext32 (decs32 (innerSoft s.din)).1) (decs32 (innerSoft s.din)).2 none s) :=
  rfl

/-! ## Selection over all words of a width (00_scope.md R12) -/

/-- A selection of the minimum over the numbers below `2^n` is one over all `n`-bit words: its value is the least one,
and no lesser word has it. -/
theorem argminUpTo_ofNat_spec {n N : Nat} {best : Nat × Int} (hN : N + 1 = 2 ^ n) (f : BitVec n → Int)
    (hbest : argminUpTo N (fun x => f (BitVec.ofNat n x)) = best) :
    best.2 = f (BitVec.ofNat n best.1) ∧ (∀ e, best.2 ≤ f e) ∧
      ∀ e, f e = best.2 → (BitVec.ofNat n best.1).toNat ≤ e.toNat := by
  obtain ⟨hle, hval, hmin, hleast⟩ := argminUpTo_spec N fun x => f (BitVec.ofNat n x)
  rw [hbest] at hle hval hmin hleast
  have hword (e : BitVec n) : BitVec.ofNat n e.toNat = e := by simp
  refine ⟨hval, fun e => ?_, fun e he => ?_⟩
  · have hbound := hmin e.toNat (by omega)
    rwa [hword] at hbound
  · rw [BitVec.toNat_ofNat, Nat.mod_eq_of_lt (by omega)]
    refine Nat.le_of_not_lt fun hlt => ?_
    have hworse := hleast e.toNat hlt
    rw [hword, he] at hworse
    exact lt_irrefl _ hworse

/-- A selection of the maximum over the numbers below `2^n` is one over all `n`-bit words: its value is the greatest
one, and no lesser word has it. -/
theorem argmaxUpTo_ofNat_spec {n N : Nat} {best : Nat × Int} (hN : N + 1 = 2 ^ n) (f : BitVec n → Int)
    (hbest : argmaxUpTo N (fun x => f (BitVec.ofNat n x)) = best) :
    best.2 = f (BitVec.ofNat n best.1) ∧ (∀ e, f e ≤ best.2) ∧
      ∀ e, f e = best.2 → (BitVec.ofNat n best.1).toNat ≤ e.toNat := by
  rw [argmaxUpTo_eq] at hbest
  subst hbest
  obtain ⟨hval, hmin, hleast⟩ := argminUpTo_ofNat_spec hN (fun e => -f e) rfl
  exact ⟨neg_eq_iff_eq_neg.mpr hval, fun e => le_neg.mpr (hmin e),
    fun e he => hleast e (neg_eq_iff_eq_neg.mpr he)⟩

/-! ## The inner decoders (40_rm_codec.md R84, R85) -/

/-- `dech32` finds the least distance, and the least dataword at that distance (40_rm_codec.md R84). -/
theorem dech32_spec (w : InnerWord) :
    (dech32 w).2 = dist32 w (dech32 w).1 ∧ (∀ e, (dech32 w).2 ≤ dist32 w e) ∧
      ∀ e, (dist32 w e : Int) = (dech32 w).2 → (dech32 w).1.toNat ≤ e.toNat := by
  unfold dech32
  generalize hbest : argminUpTo 63 _ = best
  exact argminUpTo_ofNat_spec (by decide) (fun e => (dist32 w e : Int)) hbest

/-- `decs32` finds the greatest correlation, and the least dataword of that correlation (40_rm_codec.md R85). -/
theorem decs32_spec (v : Nat → Int) :
    (decs32 v).2 = corr32 v (decs32 v).1 ∧ (∀ e, corr32 v e ≤ (decs32 v).2) ∧
      ∀ e, corr32 v e = (decs32 v).2 → (decs32 v).1.toNat ≤ e.toNat := by
  unfold decs32
  generalize hbest : argmaxUpTo 63 _ = best
  exact argmaxUpTo_ofNat_spec (by decide) (corr32 v) hbest

/-- The correlation as the library's finite sum, bit 0 counting as `+1` and bit 1 as `-1`. -/
theorem corr32_eq_sum (v : Nat → Int) (d : BitVec 6) :
    corr32 v d = ∑ j ∈ Finset.range 32, (if (enc32 d).getMsbD j then -1 else 1) * v j :=
  sumTo_eq_sum _ 32

/-! ## Positions in the (64,7) code (40_rm_codec.md R87) -/

theorem pos_lt (adj : Bool) {j k : Nat} (hj : j < 32) (hk : k < 2) : pos adj j k < 64 := by
  cases adj <;> simp [pos] <;> omega

@[simp] theorem posBit_pos (adj : Bool) {j k : Nat} (hj : j < 32) (hk : k < 2) : posBit adj (pos adj j k) = j := by
  cases adj <;> simp [pos, posBit] <;> omega

@[simp] theorem posCopy_pos (adj : Bool) {j k : Nat} (hj : j < 32) (hk : k < 2) : posCopy adj (pos adj j k) = k := by
  cases adj <;> simp [pos, posCopy] <;> omega

@[simp] theorem pos_posBit_posCopy (adj : Bool) (i : Nat) : pos adj (posBit adj i) (posCopy adj i) = i := by
  cases adj <;> simp [pos, posBit, posCopy] <;> omega

theorem posBit_lt (adj : Bool) {i : Nat} (hi : i < 64) : posBit adj i < 32 := by
  cases adj <;> simp [posBit] <;> omega

theorem posCopy_lt (adj : Bool) {i : Nat} (hi : i < 64) : posCopy adj i < 2 := by
  cases adj <;> simp [posCopy] <;> omega

/-- Each sequence position is the place of one copy of one inner code bit. -/
theorem existsUnique_pos_eq (adj : Bool) {i : Nat} (hi : i < 64) :
    ∃! jk : Nat × Nat, jk.1 < 32 ∧ jk.2 < 2 ∧ pos adj jk.1 jk.2 = i := by
  refine ⟨(posBit adj i, posCopy adj i), ⟨posBit_lt adj hi, posCopy_lt adj hi, pos_posBit_posCopy adj i⟩, ?_⟩
  rintro ⟨j, k⟩ ⟨hj, hk, rfl⟩
  rw [posBit_pos adj hj hk, posCopy_pos adj hj hk]

/-! ## The codewords of the (64,7) code (40_rm_codec.md R88) -/

/-- The bit at the place of copy `k` of inner code bit `j`, in both layouts. -/
theorem seq64_enc64_pos (adj : Bool) (p : BitVec 7) {j k : Nat} (hj : j < 32) (hk : k < 2) :
    seq64 (enc64 adj p) (pos adj j k) =
      (seq32 (enc32 (datawordOf p)) j ^^ (decide (k = 1) && externalOf p)) := by
  rw [enc64, seq64_word64 _ _ (pos_lt adj hj hk), posBit_pos adj hj hk, posCopy_pos adj hj hk]

theorem seq64_enc64_pos_zero (adj : Bool) (p : BitVec 7) {j : Nat} (hj : j < 32) :
    seq64 (enc64 adj p) (pos adj j 0) = seq32 (enc32 (datawordOf p)) j := by
  simp [seq64_enc64_pos adj p hj]

theorem seq64_enc64_pos_one (adj : Bool) (p : BitVec 7) {j : Nat} (hj : j < 32) :
    seq64 (enc64 adj p) (pos adj j 1) = (seq32 (enc32 (datawordOf p)) j ^^ externalOf p) := by
  simp [seq64_enc64_pos adj p hj]

/-- Row 5 of `G` is all ones, so the gated row has the gating bit everywhere (40_rm_codec.md R80). -/
theorem seq32_gate_genRow_five (b : Bool) {j : Nat} (hj : j < 32) : seq32 (gate b (genRow 5)) j = b := by
  cases b with
  | false => simp [gate, seq32]
  | true =>
    rw [seq32, gate, if_pos rfl, show genRow 5 = BitVec.allOnes 32 by decide, BitVec.getMsbD_allOnes]
    exact decide_eq_true hj

/-- In the halves layout the codeword is the inner codeword, then the inner codeword or its complement. -/
theorem enc64_false_eq_append (p : BitVec 7) :
    enc64 false p = enc32 (datawordOf p) ++ (enc32 (datawordOf p) ^^^ gate (externalOf p) (genRow 5)) := by
  apply BitVec.eq_of_getMsbD_eq
  intro i hi
  rw [BitVec.getMsbD_append]
  split_ifs with hhalf
  · obtain ⟨j, rfl⟩ := Nat.exists_eq_add_of_le' hhalf
    have hj : j < 32 := by omega
    rw [Nat.add_sub_cancel]
    calc (enc64 false p).getMsbD (j + 32)
        = (seq32 (enc32 (datawordOf p)) j ^^ externalOf p) := seq64_enc64_pos_one false p hj
      _ = seq32 (enc32 (datawordOf p) ^^^ gate (externalOf p) (genRow 5)) j := by
        rw [seq32_xor, seq32_gate_genRow_five _ hj]
  · exact seq64_enc64_pos_zero false p (Nat.lt_of_not_le hhalf)

/-! ## The obligations -/

/-- Settles O4: `dech32` selects over all 64 datawords. -/
theorem rm32DechAnswersTheNearestDataword : Obligations.Rm32DechAnswersTheNearestDataword := by
  unfold Obligations.Rm32DechAnswersTheNearestDataword
  intro w s
  obtain ⟨hval, hmin, hleast⟩ := dech32_spec w
  rw [hval] at hmin hleast
  refine ⟨(dech32 w).1, dist32 w (dech32 w).1, ?_, rfl, fun e => Int.ofNat_le.mp (hmin e),
    fun e he => hleast e (congrArg Nat.cast he)⟩
  rw [exec_rm32Dech, finish_eq, hval, zext32]

/-- Settles O6: `decs32` selects over all 64 datawords, and the correlation is the sum the statement writes out. -/
theorem rm32DecsAnswersTheBestCorrelation : Obligations.Rm32DecsAnswersTheBestCorrelation := by
  unfold Obligations.Rm32DecsAnswersTheBestCorrelation
  intro s
  have hspec := decs32_spec (innerSoft s.din)
  simp only [corr32_eq_sum] at hspec
  exact ⟨_, _, by rw [exec_rm32Decs, finish_eq, zext32], hspec⟩

/-- Settles O9: `posBit` and `posCopy` invert `pos`, so the word built over the positions has each copy in its place. -/
theorem outerCodewordFollowsTheDoublingRule : Obligations.OuterCodewordFollowsTheDoublingRule := by
  unfold Obligations.OuterCodewordFollowsTheDoublingRule
  exact ⟨fun _ _ _ => rfl, fun adj _ hi => existsUnique_pos_eq adj hi, fun adj _ _ hj hk => pos_lt adj hj hk,
    fun adj p => ⟨fun _ hj => ⟨seq64_enc64_pos_zero adj p hj, seq64_enc64_pos_one adj p hj⟩,
      enc64_false_eq_append p⟩⟩

/-- Settles O1: the word is the one the encoder gives, and `enc32` is the sum of the selected rows. -/
theorem rm32EncAnswersTheMatrixProduct : Obligations.Rm32EncAnswersTheMatrixProduct := by
  unfold Obligations.Rm32EncAnswersTheMatrixProduct
  intro d s
  rw [← encode_rm32Enc_eq_or]
  exact ⟨decode_encode _, exec_rm32Enc d s⟩

end Sys2Proof.Machine
end

/-! # The PLSC encoder (41_plsc_encoder.md)

The symbol table of the mapper, the all-zero codeword of value 0, and the answers of `PLSC.ENC` and `PLSC.ENCP`. -/

section

namespace Sys2Proof.Machine

/-! ## The mapper (41_plsc_encoder.md R112 to R115) -/

/-- The axis of a symbol is turned by 0, 1, 2 or 3 quarter turns. -/
theorem rho_cases (c : Params) (i : Int) : rho c i = 0 ∨ rho c i = 1 ∨ rho c i = 2 ∨ rho c i = 3 := by
  unfold rho
  split_ifs <;> omega

/-- The start-of-frame symbol stands at position -1 (41_plsc_encoder.md R112, R115). -/
theorem rho_neg_one (c : Params) : rho c (-1) = if c.rotAlt then 1 else 3 :=
  rfl

@[simp] theorem mulJ_one (x : Sample) : mulJ 1 x = ⟨-x.q, x.i⟩ := rfl

@[simp] theorem mulJ_two (x : Sample) : mulJ 2 x = ⟨-x.i, -x.q⟩ := rfl

@[simp] theorem mulJ_three (x : Sample) : mulJ 3 x = ⟨x.q, -x.i⟩ := rfl

@[simp] theorem scale_one (x : Sample) : Sample.scale 1 x = x := by
  simp [Sample.scale]

@[simp] theorem scale_neg_one (x : Sample) : Sample.scale (-1) x = ⟨-x.i, -x.q⟩ := by
  simp [Sample.scale]

/-- The mapper's formula gives the entries of the table (41_plsc_encoder.md R114): one case for each row of the table,
then one for each of its columns. -/
theorem mapsym_eq_symbolByTable (c : Params) (b : Bool) (i : Int) : mapsym c b i = symbolByTable c b i := by
  unfold mapsym symbolByTable refVector
  rw [← rho]
  rcases rho_cases c i with hrow | hrow | hrow | hrow <;> rw [hrow]
  all_goals
    cases c.refDiag <;> cases b <;> simp

/-- Symbol `i` of a mapped sequence (41_plsc_encoder.md R118). -/
@[simp] theorem mapWord_getElem (c : Params) (w : CodeWord) (i : Nat) (h : i < 64) :
    (mapWord c w)[i] = mapsym c (w.getMsbD i) i := by
  simp [mapWord, seq64]

/-! ## The codeword of 0 (40_rm_codec.md R89, 41_plsc_encoder.md R120) -/

/-- The bit of a codeword at a sequence position (40_rm_codec.md R88). -/
theorem seq64_enc64 (adj : Bool) (p : BitVec 7) {i : Nat} (hi : i < 64) :
    seq64 (enc64 adj p) i =
      (seq32 (enc32 (datawordOf p)) (posBit adj i) ^^ (decide (posCopy adj i = 1) && externalOf p)) :=
  seq64_word64 _ i hi

@[simp] theorem enc32_zero : enc32 0#6 = 0#32 := by decide

/-- No row is selected and no copy inverted. -/
@[simp] theorem enc64_zero (adj : Bool) : enc64 adj 0#7 = 0#64 := by
  apply seq64_ext
  intro i hi
  have hdata : datawordOf 0#7 = 0#6 := rfl
  have hext : externalOf 0#7 = false := rfl
  rw [seq64_enc64 adj _ hi, hdata, hext, enc32_zero]
  simp [seq32, seq64]

@[simp] theorem scramble_zero : scramble 0#64 = SCR := BitVec.zero_xor

/-! ## Packing and the check of a triple (41_plsc_encoder.md R116, R117) -/

/-- Where each bit of a packed triple comes from. -/
theorem plscPack_getLsbD (modcod : BitVec 5) (short pilots : Bool) (k : Nat) :
    (plscPack modcod short pilots).getLsbD k =
      if k = 0 then pilots else if k = 1 then short else modcod.getLsbD (k - 2) := by
  simp only [plscPack, BitVec.getLsbD_append, BitVec.getLsbD_ofBool, Nat.sub_sub]
  grind

@[simp] theorem modcodOf_plscPack (modcod : BitVec 5) (short pilots : Bool) :
    modcodOf (plscPack modcod short pilots) = modcod := by
  apply BitVec.eq_of_getLsbD_eq
  intro k hk
  rw [modcodOf, BitVec.getLsbD_extractLsb', plscPack_getLsbD]
  simp [hk, show 2 + k ≠ 1 by omega]

@[simp] theorem shortOf_plscPack (modcod : BitVec 5) (short pilots : Bool) :
    shortOf (plscPack modcod short pilots) = short :=
  plscPack_getLsbD modcod short pilots 1

@[simp] theorem externalOf_plscPack (modcod : BitVec 5) (short pilots : Bool) :
    externalOf (plscPack modcod short pilots) = pilots :=
  plscPack_getLsbD modcod short pilots 0

/-- The check by numbers is the list of the spec, whatever the pilot flag. -/
theorem cfgInvalid_eq_true_iff (modcod : BitVec 5) (short pilots : Bool) :
    cfgInvalid modcod short pilots = true ↔ refusedTriple modcod short := by
  have hreserved : 29 ≤ modcod.toNat ↔ modcod = 29 ∨ modcod = 30 ∨ modcod = 31 := by bv_omega
  simp [cfgInvalid, refusedTriple, hreserved, BitVec.toNat_eq, or_assoc]

/-! ## What the encoder's commands answer (41_plsc_encoder.md R118, R119) -/

/-- An error report adds one response and changes nothing else (60_exceptions.md R181, R182). -/
theorem raise_eq (st : Status) (s : State) :
    raise st s = { s with responses := s.responses ++ [⟨st, 0#32, 0, none⟩] } :=
  rfl

theorem exec_plscEnc (p : BitVec 7) (s : State) :
    exec (.plscEnc p) s = .next { s with responses := s.responses ++
      [⟨.ok, p.setWidth 32, 0, some (mapWord s.params (scramble (enc64 s.params.layoutAdj p)))⟩] } :=
  rfl

theorem exec_plscEncp_of_refused {modcod : BitVec 5} {short : Bool} (h : refusedTriple modcod short) (pilots : Bool)
    (s : State) : exec (.plscEncp modcod short pilots) s = .next (raise .invalidCfg s) :=
  if_pos ((cfgInvalid_eq_true_iff modcod short pilots).mpr h)

theorem exec_plscEncp_of_accepted {modcod : BitVec 5} {short : Bool} (h : ¬ refusedTriple modcod short)
    (pilots : Bool) (s : State) :
    exec (.plscEncp modcod short pilots) s = exec (.plscEnc (plscPack modcod short pilots)) s :=
  if_neg (mt (cfgInvalid_eq_true_iff modcod short pilots).mp h)

/-! ## The obligations -/

/-- Settles O14: the formula is the table, and the start-of-frame symbol is the bit 0 turned by `rho(-1)`, which is 1
or 3 quarter turns. -/
theorem mapperFollowsTheTable : Obligations.MapperFollowsTheTable := by
  unfold Obligations.MapperFollowsTheTable
  refine ⟨mapsym_eq_symbolByTable, fun c => ?_⟩
  rw [sofRef, mapsym, rho_neg_one, refVector]
  cases c.rotAlt <;> cases c.refDiag <;> simp

/-- Settles O15: the codeword of 0 is 0 in both layouts, so the scrambled word is `SCR`. -/
theorem plscEncOfZeroDrivesTheScrambler : Obligations.PlscEncOfZeroDrivesTheScrambler := by
  unfold Obligations.PlscEncOfZeroDrivesTheScrambler
  intro s
  refine ⟨mapWord s.params SCR, ?_, enc64_zero _, fun i hi => ?_⟩
  · rw [exec_plscEnc, enc64_zero, scramble_zero]
    rfl
  · rw [mapWord_getElem _ _ i hi, mapsym_eq_symbolByTable, SCR]

/-- Settles O17: an accepted triple is encoded as `plsc_pack` of it, which the field split takes apart again. -/
theorem plscEncpEncodesAnAcceptedTriple : Obligations.PlscEncpEncodesAnAcceptedTriple := by
  unfold Obligations.PlscEncpEncodesAnAcceptedTriple
  intro modcod short pilots s haccepted
  have hexec := exec_plscEncp_of_accepted haccepted pilots s
  exact ⟨hexec, modcodOf_plscPack modcod short pilots, shortOf_plscPack modcod short pilots,
    externalOf_plscPack modcod short pilots, _, hexec.trans (exec_plscEnc _ s)⟩

/-- Settles O18: the check decides between the error report and the answer of `PLSC.ENC`, whose status is `OK`. -/
theorem plscEncpReportsARefusedTriple : Obligations.PlscEncpReportsARefusedTriple := by
  unfold Obligations.PlscEncpReportsARefusedTriple
  intro modcod short pilots s
  refine ⟨fun hrefused => ?_, cfgInvalid_eq_true_iff modcod short pilots, fun haccepted => ?_⟩
  · rw [exec_plscEncp_of_refused hrefused, raise_eq]
  · exact ⟨_, _, (exec_plscEncp_of_accepted haccepted pilots s).trans (exec_plscEnc _ s), rfl, rfl⟩

end Sys2Proof.Machine
end

/-! # The PLSC decoder in the coherent soft mode (42_plsc_decoder.md)

The table of soft values, the signs that descrambling keeps, the soft decoder of the (64,7) code, and the answer of
`PLSC.DEC c=1 s=1`. -/

section

namespace Sys2Proof.Machine

/-! ## Coherent soft values (42_plsc_decoder.md R131) -/

/-- At a symbol of the block the quarter turns are a natural number, the row of the table of R131. -/
theorem rho_natCast (c : Params) (i : Nat) : rho c i = ((if c.rotAlt then i % 2 else i % 4 : Nat) : Int) := by
  unfold rho
  split_ifs <;> simp

@[simp] theorem mulJ_neg_one (x : Sample) : mulJ (-1) x = ⟨x.q, -x.i⟩ := rfl

@[simp] theorem mulJ_neg_two (x : Sample) : mulJ (-2) x = ⟨-x.i, -x.q⟩ := rfl

@[simp] theorem mulJ_neg_three (x : Sample) : mulJ (-3) x = ⟨-x.q, x.i⟩ := rfl

/-- The demapper's formula gives the entries of the table (42_plsc_decoder.md R131): one case for each row of the
table, then one for each of its two axes. -/
theorem demapCoh_eq_softByTable (c : Params) (w : Window) (i : Nat) :
    demapCoh c w i = softByTable c (dinAt w (i + 1)) i := by
  have hrow : (if c.rotAlt then i % 2 else i % 4) < 4 := by split_ifs <;> omega
  unfold demapCoh softByTable plscSymbol
  rw [rho_natCast]
  generalize (if c.rotAlt then i % 2 else i % 4) = row at hrow
  interval_cases row
  all_goals
    cases c.refDiag <;> simp <;> ring

/-! ## Descrambling (42_plsc_decoder.md R135, R136) -/

/-- Slicing a descrambled soft value descrambles the sliced bit, but for the value 0, which a negation does not move
to the other side. -/
theorem hbit_descrSoft (v : Nat → Int) {i : Nat} (h : v i ≠ 0) :
    hbit (descrSoft v i) = (hbit (v i) ^^ seq64 SCR i) := by
  unfold descrSoft hbit
  cases seq64 SCR i with
  | false => simp
  | true =>
    rw [if_pos rfl, Bool.xor_true, ← decide_not]
    exact decide_eq_decide.mpr (by omega)

/-! ## The soft decoder of the (64,7) code (40_rm_codec.md R91) -/

/-- `decs64` finds the greatest correlation, and the least value of that correlation. -/
theorem decs64_spec (adj : Bool) (v : Nat → Int) :
    (decs64 adj v).2 = corr64 adj v (decs64 adj v).1 ∧ (∀ q, corr64 adj v q ≤ (decs64 adj v).2) ∧
      ∀ q, corr64 adj v q = (decs64 adj v).2 → (decs64 adj v).1.toNat ≤ q.toNat := by
  unfold decs64
  generalize hbest : argmaxUpTo 127 _ = best
  exact argmaxUpTo_ofNat_spec (by decide) (corr64 adj v) hbest

/-- The correlation as the library's finite sum, bit 0 counting as `+1` and bit 1 as `-1`. -/
theorem corr64_eq_sum (adj : Bool) (v : Nat → Int) (p : BitVec 7) :
    corr64 adj v p = ∑ i ∈ Finset.range 64, (if (enc64 adj p).getMsbD i then -1 else 1) * v i :=
  sumTo_eq_sum _ 64

/-! ## What the command answers (42_plsc_decoder.md R136, R138, R139) -/

/-- The buffer that the soft mode leaves in `SOFT`: the descrambled soft values of the window. -/
def descrambledSoft (s : State) : Vector Int 64 :=
  Vector.ofFn fun i : Fin 64 => descrSoft (demapCoh s.params s.din) i.val

/-- Entry `i` of the buffer, with the soft value taken from the table. -/
theorem descrambledSoft_getElem (s : State) {i : Nat} (h : i < 64) :
    (descrambledSoft s)[i] = descrSoft (fun k => softByTable s.params (dinAt s.din (k + 1)) k) i := by
  rw [descrambledSoft, Vector.getElem_ofFn, funext (demapCoh_eq_softByTable s.params s.din)]

/-- Writing `SOFT` and then ending the decode, as one update of the state: the registers, the buffer, the response. -/
theorem finishDecode_writeSoft (p : BitVec 7) (m : Int) (soft : Bool) (u : Nat → Int) (s : State) :
    finishDecode p m soft (writeSoft u s) = { writeResults p m soft s with
      soft := Vector.ofFn fun i : Fin 64 => u i.val
      responses := s.responses ++ [⟨.ok, p.setWidth 32, m, none⟩] } := by
  simp only [finishDecode, finish_eq, writeResults, writeSoft, zext32]

/-- `PLSC.DEC c=1 s=1` answers the results of the soft decoder on the buffer it leaves in `SOFT`, and changes nothing
else. -/
theorem exec_plscDec_soft (s : State) :
    let best := decs64 s.params.layoutAdj (softAt (descrambledSoft s))
    exec (.plscDec true true) s = .next { writeResults best.1 best.2 true s with
      soft := descrambledSoft s
      responses := s.responses ++ [⟨.ok, best.1.setWidth 32, best.2, none⟩] } := by
  rw [exec, execPlscDec_soft, decodeSoftBuffer, finishDecode_writeSoft, writeSoft_soft, writeSoft_params]
  rfl

/-! ## The obligation -/

/-- Settles O20: `SOFT` gets the descrambled table values, and `decs64` selects over all 128 values the greatest
correlation with it. -/
theorem coherentSoftDecodeFindsTheBestCorrelation : Obligations.CoherentSoftDecodeFindsTheBestCorrelation := by
  unfold Obligations.CoherentSoftDecodeFindsTheBestCorrelation
  intro s
  have hspec := decs64_spec s.params.layoutAdj (softAt (descrambledSoft s))
  simp only [corr64_eq_sum] at hspec
  refine ⟨_, _, descrambledSoft s, exec_plscDec_soft s, fun i hi => descrambledSoft_getElem s hi,
    fun i hi hne => ?_, hspec⟩
  rw [descrambledSoft_getElem s hi]
  exact hbit_descrSoft _ hne

end Sys2Proof.Machine
end

/-! # The transmission parameters and the MODCOD table (43_modcod_params.md)

The range of each derived number, so that no register cuts it, the parameters of a reserved MODCOD, and what the
encoder's commands answer for one. -/

section

namespace Sys2Proof.Machine

/-! ## The derived numbers fit their registers (43_modcod_params.md R163 to R166, 10_state.md R24) -/

theorem dummyOf_eq_true_iff (p : BitVec 7) : dummyOf p = true ↔ (modcodOf p).toNat = 0 := by
  simp [dummyOf, BitVec.toNat_eq]

theorem dummyOf_eq_false_iff (p : BitVec 7) : dummyOf p = false ↔ (modcodOf p).toNat ≠ 0 := by
  rw [← Bool.not_eq_true, dummyOf_eq_true_iff]

/-- Bits per symbol of a real constellation, or 0 (43_modcod_params.md R163). -/
theorem nModOf_eq_zero_or_mem_Icc (p : BitVec 7) : nModOf p = 0 ∨ nModOf p ∈ Set.Icc 2 5 := by
  simp only [nModOf]
  split_ifs <;> simp

/-- The values without a constellation are the dummy frame and the reserved MODCODs (43_modcod_params.md R163). -/
theorem nModOf_eq_zero_iff (p : BitVec 7) : nModOf p = 0 ↔ (modcodOf p).toNat = 0 ∨ 29 ≤ (modcodOf p).toNat := by
  simp only [nModOf]
  split_ifs <;> simp <;> omega

/-- The longest frame is the normal one with the fewest bits per symbol (43_modcod_params.md R164). -/
theorem slotsOf_le (p : BitVec 7) : slotsOf p ≤ 360 := by
  unfold slotsOf
  split_ifs with hdummy hzero hshort
  · decide
  · decide
  all_goals
    obtain ⟨htwo, -⟩ := (nModOf_eq_zero_or_mem_Icc p).resolve_left hzero
    refine (Nat.div_le_div_left (Nat.mul_le_mul_right SLOT htwo) (by decide)).trans ?_
    decide

theorem nPilotsOf_le (p : BitVec 7) : nPilotsOf p ≤ 22 := by
  have hslots := slotsOf_le p
  unfold nPilotsOf PILOT_PERIOD
  split_ifs <;> omega

theorem plframeLenOf_le (p : BitVec 7) : plframeLenOf p ≤ 33282 := by
  have hslots := slotsOf_le p
  have hpilots := nPilotsOf_le p
  unfold plframeLenOf HDR_LEN SLOT PILOT_LEN
  omega

/-- The derived registers hold the derivation of `DEC_PLSC`, each number uncut by its register's width
(43_modcod_params.md R169). -/
structure HoldsDerived (t : State) : Prop where
  modcod : t.modcod = modcodOf t.decPlsc
  short : t.shortFecframe = shortOf t.decPlsc
  pilots : t.hasPilots = pilotsOf t.decPlsc
  dummy : t.dummyFrame = dummyOf t.decPlsc
  nMod : t.nMod.toNat = nModOf t.decPlsc
  slots : t.slots.toNat = slotsOf t.decPlsc
  nPilots : t.nPilots.toNat = nPilotsOf t.decPlsc
  plframeLen : t.plframeLen.toNat = plframeLenOf t.decPlsc

theorem finishDecode_holdsDerived (p : BitVec 7) (m : Int) (e : Bool) (s : State) :
    HoldsDerived (finishDecode p m e s) where
  modcod := by simp
  short := by simp
  pilots := by simp
  dummy := by simp
  nMod := by
    have hlt : nModOf p < 8 := by rcases nModOf_eq_zero_or_mem_Icc p with hzero | ⟨-, hfive⟩ <;> omega
    simp [Nat.mod_eq_of_lt hlt]
  slots := by
    have hlt : slotsOf p < 512 := (slotsOf_le p).trans_lt (by decide)
    simp [Nat.mod_eq_of_lt hlt]
  nPilots := by
    have hlt : nPilotsOf p < 32 := (nPilotsOf_le p).trans_lt (by decide)
    simp [Nat.mod_eq_of_lt hlt]
  plframeLen := by
    have hlt : plframeLenOf p < 65536 := (plframeLenOf_le p).trans_lt (by decide)
    simp [Nat.mod_eq_of_lt hlt]

/-- What every `PLSC.DEC` leaves in the derived registers, whatever its mode (42_plsc_decoder.md R139). -/
theorem exec_plscDec_holdsDerived (c sft : Bool) (s : State) :
    ∃ t : State, exec (.plscDec c sft) s = .next t ∧ HoldsDerived t ∧ t.decValid = true := by
  obtain ⟨p, m, u, hexec⟩ := execPlscDec_completes c sft s
  exact ⟨_, hexec, finishDecode_holdsDerived .., finishDecode_decValid ..⟩

/-! ## Reserved MODCODs (43_modcod_params.md R167) -/

/-- The host's two ways to recognise a reserved MODCOD agree. -/
theorem reserved_iff_nModOf_eq_zero (p : BitVec 7) :
    29 ≤ (modcodOf p).toNat ↔ nModOf p = 0 ∧ dummyOf p = false := by
  rw [nModOf_eq_zero_iff, dummyOf_eq_false_iff]
  omega

section Reserved

variable {p : BitVec 7} (hreserved : 29 ≤ (modcodOf p).toNat)
include hreserved

theorem nModOf_of_reserved : nModOf p = 0 := ((reserved_iff_nModOf_eq_zero p).mp hreserved).1

theorem dummyOf_of_reserved : dummyOf p = false := ((reserved_iff_nModOf_eq_zero p).mp hreserved).2

theorem pilotsOf_of_reserved : pilotsOf p = p.getLsbD 0 := by
  simp [pilotsOf, dummyOf_of_reserved hreserved]

theorem slotsOf_of_reserved : slotsOf p = 0 := by
  simp [slotsOf, dummyOf_of_reserved hreserved, nModOf_of_reserved hreserved]

theorem nPilotsOf_of_reserved : nPilotsOf p = 0 := by
  simp [nPilotsOf, slotsOf_of_reserved hreserved]

/-- A frame of a reserved MODCOD is its header alone. -/
theorem plframeLenOf_of_reserved : plframeLenOf p = 90 := by
  simp [plframeLenOf, slotsOf_of_reserved hreserved, nPilotsOf_of_reserved hreserved, HDR_LEN]

end Reserved

/-- The reserved MODCODs are the values from 116 on. -/
theorem reserved_iff_le_toNat (p : BitVec 7) : 29 ≤ (modcodOf p).toNat ↔ 116 ≤ p.toNat := by
  rw [modcodOf, BitVec.extractLsb'_toNat, Nat.shiftRight_eq_div_pow]
  omega

theorem refusedTriple_of_reserved {modcod : BitVec 5} (hreserved : 29 ≤ modcod.toNat) (short : Bool) :
    refusedTriple modcod short :=
  (cfgInvalid_eq_true_iff modcod short false).mp (by simp [cfgInvalid, hreserved])

/-- The window of V56 (95_test_vectors.md): the symbols of value 127 in the default configuration. -/
def windowV56 : Window :=
  Vector.ofFn fun i =>
    if i.val = 0 then ⟨0, 0⟩
    else ((mapWord Params.standard (scramble (enc64 false 127#7)))[i.val - 1]?).getD ⟨0, 0⟩

/-- V56 (95_test_vectors.md): `PLSC.DEC` does decode reserved MODCODs. -/
theorem exec_plscDec_windowV56_reserved :
    ∃ t : State, exec (.plscDec true false) { State.reset with din := windowV56 } = .next t ∧
      t.decPlsc = 127#7 ∧ 29 ≤ t.modcod.toNat :=
  ⟨_, execPlscDec_hard _, by decide +kernel⟩

/-! ## The obligations -/

/-- Settles O23: every `PLSC.DEC` leaves the derivation of its value, clause by clause that of the spec. -/
theorem plscDecWritesTheDerivedParameters : Obligations.PlscDecWritesTheDerivedParameters := by
  unfold Obligations.PlscDecWritesTheDerivedParameters
  intro c sft s
  obtain ⟨t, hexec, h, hvalid⟩ := exec_plscDec_holdsDerived c sft s
  refine ⟨t, hexec, h.modcod, h.short, ?_, ?_, h.nMod, ?_, ?_, ?_, hvalid⟩
  · rw [h.dummy]
    exact dummyOf_eq_true_iff _
  · rw [h.pilots, h.dummy, pilotsOf]
  · rw [h.slots, h.dummy, h.nMod, h.short]
    rfl
  · rw [h.nPilots, h.pilots, h.slots]
    simp only [nPilotsOf, Bool.and_eq_true, decide_eq_true_eq, PILOT_PERIOD]
  · rw [h.plframeLen, h.slots, h.nPilots]
    rfl

/-- Settles O25: a reserved MODCOD goes through the derivation like any value; the value is encoded as it stands, and
its triple is refused. -/
theorem reservedModcodsAreDecodedAndEncodedRaw : Obligations.ReservedModcodsAreDecodedAndEncodedRaw := by
  unfold Obligations.ReservedModcodsAreDecodedAndEncodedRaw
  refine ⟨fun c sft s => ?_, fun p s hp => ⟨⟨_, exec_plscEnc p s⟩, ?_⟩⟩
  · obtain ⟨t, hexec, h, -⟩ := exec_plscDec_holdsDerived c sft s
    refine ⟨t, hexec, ?_, fun hreserved => ?_⟩
    · rw [h.modcod, h.dummy, BitVec.toNat_eq, h.nMod]
      exact reserved_iff_nModOf_eq_zero _
    · rw [h.modcod] at hreserved
      exact ⟨h.dummy.trans (dummyOf_of_reserved hreserved), h.short, h.pilots.trans (pilotsOf_of_reserved hreserved),
        BitVec.eq_of_toNat_eq (h.nMod.trans (nModOf_of_reserved hreserved)),
        BitVec.eq_of_toNat_eq (h.slots.trans (slotsOf_of_reserved hreserved)),
        BitVec.eq_of_toNat_eq (h.nPilots.trans (nPilotsOf_of_reserved hreserved)),
        BitVec.eq_of_toNat_eq (h.plframeLen.trans (plframeLenOf_of_reserved hreserved))⟩
  · have hrefused := refusedTriple_of_reserved ((reserved_iff_le_toNat p).mpr hp) (p.getLsbD 1)
    exact (exec_plscEncp_of_refused hrefused _ s).trans (congrArg _ (raise_eq _ s))

end Sys2Proof.Machine
end

/-! # Statuses and error reports (60_exceptions.md)

The two ways in which a command ends, what both leave unchanged, and the two tests of a presented `PLSC.ENCP` word in
their order. -/

section

namespace Sys2Proof.Machine

/-! ## How a command ends (60_exceptions.md R180, R181, R191) -/

/-- The one case in which a legal command does not end with `OK`. -/
def IsRefusedEncp (i : Instr) : Prop := ∃ m sh q, i = .plscEncp m sh q ∧ refusedTriple m sh

/-- The commands that may drive `DOUT`. -/
def IsEncode (i : Instr) : Prop := (∃ p, i = .plscEnc p) ∨ ∃ m sh q, i = .plscEncp m sh q

/-- What no command writes before it responds: the earlier responses, the parameters, and the model's bookkeeping of
what the host does. -/
structure SamePorts (s t : State) : Prop where
  responses : t.responses = s.responses
  params : t.params = s.params
  din : t.din = s.din
  host : t.host = s.host
  draws : t.draws = s.draws

theorem SamePorts.refl (s : State) : SamePorts s s := ⟨rfl, rfl, rfl, rfl, rfl⟩

/-- The writes of `PLSC.DEC` go to the result registers and to `SOFT`. -/
theorem samePorts_writeResults (p : BitVec 7) (m : Int) (e : Bool) (u : Vector Int 64) (s : State) :
    SamePorts s (writeResults p m e { s with soft := u }) where
  responses := writeResults_responses ..
  params := writeResults_params ..
  din := writeResults_din ..
  host := writeResults_host ..
  draws := writeResults_draws ..

/-- The command `i`, given in `s`, is performed: it ends with `OK` after writes that leave the ports alone, and it
drives `DOUT` only if it is an encode. -/
def IsPerformed (i : Instr) (s : State) : Prop :=
  ∃ (s' : State) (v : BitVec 32) (m : Int) (d : Option Symbols),
    exec i s = .next (finish v m d s') ∧ SamePorts s s' ∧ (d.isSome = true → IsEncode i)

/-- A command is performed unless it is a `PLSC.ENCP` with a refused triple. -/
theorem isPerformed_of_not_isRefusedEncp {i : Instr} (h : ¬ IsRefusedEncp i) (s : State) : IsPerformed i s := by
  cases i with
  | rm32Enc d => exact ⟨s, _, _, none, exec_rm32Enc d s, .refl s, nofun⟩
  | rm32Dech w => exact ⟨s, _, _, none, exec_rm32Dech w s, .refl s, nofun⟩
  | rm32Decs => exact ⟨s, _, _, none, exec_rm32Decs s, .refl s, nofun⟩
  | plscEnc p => exact ⟨s, _, _, _, exec_plscEnc p s, .refl s, fun _ => .inl ⟨p, rfl⟩⟩
  | plscEncp modcod short pilots =>
    have haccepted : ¬ refusedTriple modcod short := fun hrefused => h ⟨modcod, short, pilots, rfl, hrefused⟩
    exact ⟨s, _, _, _, (exec_plscEncp_of_accepted haccepted pilots s).trans (exec_plscEnc _ s), .refl s,
      fun _ => .inr ⟨modcod, short, pilots, rfl⟩⟩
  | plscDec c sft =>
    obtain ⟨p, m, u, hexec⟩ := execPlscDec_completes c sft s
    exact ⟨_, _, _, none, hexec, samePorts_writeResults .., nofun⟩

/-! ## Error reports write no register (60_exceptions.md R181, R182) -/

theorem sameArchState_raise (st : Status) (s : State) : sameArchState s (raise st s) := by
  simp [sameArchState]

/-- Nor does taking the command from the host. -/
theorem sameArchState_raise_accept (st : Status) (din : Window) (rest : List HostEvent) (s : State) :
    sameArchState s (raise st (accept din rest s)) := by
  simp [sameArchState]

/-! ## A presented `PLSC.ENCP` word (30_encoding.md R61, 60_exceptions.md R183) -/

/-- A step on a presented command performs its word on the state in which it is taken. -/
theorem step_of_command {s : State} {cw : CmdWord} {din : Window} {rest : List HostEvent}
    (hhost : s.host = .command cw din :: rest) (hfits : windowFits s.params.sw din = true) :
    step s = performWord cw (accept din rest s) := by
  rw [step, hhost]
  exact if_pos hfits

/-- A legal word is performed as the command it encodes. -/
theorem performWord_encode (i : Instr) (s : State) : performWord (encode i) s = exec i s := by
  rw [performWord, decode_encode]

/-- The word of `PLSC.ENCP` with any value in the field `RSV` (30_encoding.md R60, R63). -/
def encpWord (rsv : BitVec 10) (modcod : BitVec 5) (short pilots : Bool) : CmdWord :=
  0x5#4 ++ 0#2 ++ rsv ++ 0#25 ++ modcod ++ BitVec.ofBool short ++ BitVec.ofBool pilots

theorem cwRsv_encpWord (rsv : BitVec 10) (modcod : BitVec 5) (short pilots : Bool) :
    cwRsv (encpWord rsv modcod short pilots) = rsv := by
  apply BitVec.eq_of_getLsbD_eq
  intro k hk
  simp only [cwRsv, encpWord, BitVec.getLsbD_extractLsb', BitVec.getLsbD_append]
  grind

theorem encpWord_zero (modcod : BitVec 5) (short pilots : Bool) :
    encpWord 0#10 modcod short pilots = encode (.plscEncp modcod short pilots) := by
  revert modcod short pilots
  decide

/-- A reserved bit set makes the word illegal, whatever the triple is. -/
theorem performWord_encpWord_of_ne_zero {rsv : BitVec 10} (h : rsv ≠ 0#10) (modcod : BitVec 5)
    (short pilots : Bool) (s : State) :
    performWord (encpWord rsv modcod short pilots) s = .next (raise .illegalCmd s) := by
  have hrsv : cwRsv (encpWord rsv modcod short pilots) ≠ 0#10 := by rwa [cwRsv_encpWord]
  obtain ⟨e, he⟩ := (exists_decode_eq_error_iff _).mpr (.inr (.inr (.inl hrsv)))
  exact performWord_of_decode_eq_error he s

/-- A refused triple is reported under the status that the first failing test gives. -/
theorem performWord_encpWord_of_refused {modcod : BitVec 5} {short : Bool} (h : refusedTriple modcod short)
    (rsv : BitVec 10) (pilots : Bool) (s : State) :
    performWord (encpWord rsv modcod short pilots) s =
      .next (raise (if rsv = 0#10 then .invalidCfg else .illegalCmd) s) := by
  split_ifs with hrsv
  · rw [hrsv, encpWord_zero, performWord_encode, exec_plscEncp_of_refused h]
  · exact performWord_encpWord_of_ne_zero hrsv modcod short pilots s

/-! ## The obligations -/

/-- Settles O36: a command is either a `PLSC.ENCP` with a refused triple, which is answered with the error report, or
it is performed. -/
theorem everyCommandAnswersOnceWithTheStatusOfTheSpec :
    Obligations.EveryCommandAnswersOnceWithTheStatusOfTheSpec := by
  unfold Obligations.EveryCommandAnswersOnceWithTheStatusOfTheSpec
  intro i s
  by_cases hrefused : IsRefusedEncp i
  · obtain ⟨m, sh, q, rfl, htriple⟩ := hrefused
    exact ⟨raise .invalidCfg s, ⟨.invalidCfg, 0, 0, none⟩, exec_plscEncp_of_refused htriple q s, rfl, rfl, rfl, rfl,
      rfl, iff_of_true rfl ⟨m, sh, q, rfl, htriple⟩, nofun, fun _ => ⟨rfl, rfl, rfl, sameArchState_raise _ s⟩, nofun⟩
  · obtain ⟨s', v, m, d, hexec, hports, hdout⟩ := isPerformed_of_not_isRefusedEncp hrefused s
    exact ⟨finish v m d s', ⟨.ok, v, m, d⟩, hexec, by rw [finish_responses, hports.responses], hports.params,
      hports.din, hports.host, hports.draws, iff_of_false nofun hrefused, nofun, fun hstatus => absurd rfl hstatus,
      hdout⟩

/-- Settles O44: the step performs the word, whose `RSV` decides which of the two error reports is given. -/
theorem legalityIsTestedBeforeTheTriple : Obligations.LegalityIsTestedBeforeTheTriple := by
  unfold Obligations.LegalityIsTestedBeforeTheTriple
  intro s din rest m sh q rsv hrefused hfits hhost
  exact ⟨_, _, (step_of_command hhost hfits).trans (performWord_encpWord_of_refused hrefused rsv q _), rfl,
    sameArchState_raise_accept _ din rest s, rfl⟩

end Sys2Proof.Machine
end

/-! # The rows of the opcode table (30_encoding.md)

Decoding and encoding as inverses, and the words of each row by its mask and match. -/

section

namespace Sys2Proof

open Laws.RowMatch

/-! ## The words of the rows (30_encoding.md R62, R63, R68) -/

/-- A word whose bits from `n` up are those of `m` is `m` with an operand in its low `n` bits. -/
theorem eq_or_setWidth_of_and_allOnes_shiftLeft {w : Nat} {cw m : BitVec w} (n : Nat)
    (h : cw &&& BitVec.allOnes w <<< n = m) : cw = m ||| (cw.extractLsb' 0 n).setWidth w := by
  subst h
  apply BitVec.eq_of_getLsbD_eq
  intro k hk
  by_cases hn : k < n <;> simp [hk, hn]

/-- The word of `RM32.DECH w` has `w` in its low 32 bits. -/
theorem encode_rm32Dech_eq_or (w : BitVec 32) :
    encode (.rm32Dech w) = 0x200000000000#48 ||| w.setWidth 48 :=
  mkWord_false_false_eq_or 2#4 w

/-- The word of `PLSC.ENC p` has `p` in its low seven bits. -/
theorem encode_plscEnc_eq_or (p : BitVec 7) :
    encode (.plscEnc p) = 0x400000000000#48 ||| p.setWidth 48 := by
  rw [encode, mkWord_false_false_eq_or, BitVec.setWidth_setWidth (by decide)]
  rfl

/-- The word of `PLSC.ENCP` has the packed triple in its low seven bits. -/
theorem encode_plscEncp_eq_or (x : BitVec 7) :
    encode (.plscEncp (x.extractLsb' 2 5) (x.getLsbD 1) (x.getLsbD 0)) = 0x500000000000#48 ||| x.setWidth 48 := by
  revert x
  decide

/-- A word outside whose flags the bits are those of the word of `PLSC.DEC` is one with these flags. -/
theorem encode_plscDec_of_and_mask {cw : CmdWord} (h : cw &&& 0xF3FFFFFFFFFF#48 = 0x600000000000#48) :
    encode (.plscDec (cwC cw) (cwS cw)) = cw := by
  have hfields (start len : Nat) : cw.extractLsb' start len &&& (0xF3FFFFFFFFFF#48).extractLsb' start len =
      (0x600000000000#48).extractLsb' start len := by
    rw [← BitVec.extractLsb'_and, h]
  have hop : cwOp cw = 6#4 := (BitVec.and_allOnes (x := cwOp cw)).symm.trans (hfields 44 4)
  have hrsv : cwRsv cw = 0#10 := (BitVec.and_allOnes (x := cwRsv cw)).symm.trans (hfields 32 10)
  have harg : cwArg cw = 0#32 := (BitVec.and_allOnes (x := cwArg cw)).symm.trans (hfields 0 32)
  exact mkWord_eq_of_fields (congrArg BitVec.toNat hop) hrsv rfl rfl harg.symm

/-- The decoder reads `i` from a word exactly when it is the word of `i`. -/
theorem decode_eq_ok_iff {cw : CmdWord} {i : Instr} : decode cw = .ok i ↔ encode i = cw :=
  ⟨encode_of_decode_eq_ok, fun h => h ▸ decode_encode i⟩

/-- The word of `PLSC.ENC p` has `p` in its low seven bits, and is decoded as such. -/
theorem decode_plscEnc_word (p : BitVec 7) : decode (0x400000000000#48 ||| p.setWidth 48) = .ok (.plscEnc p) := by
  rw [← encode_plscEnc_eq_or, decode_encode]

/-! ## The obligations -/

/-- Settles O37: by `decode_encode`, one case for each command. -/
theorem decodeOfEncodeIsTheCommand : Obligations.DecodeOfEncodeIsTheCommand := decode_encode

/-- Settles O38: by `encode_of_decode_eq_ok`, the fields of a legal word are those of its command's word. -/
theorem encodeOfDecodeIsTheWord : Obligations.EncodeOfDecodeIsTheWord := fun _ _ => encode_of_decode_eq_ok

/-- Settles O40: the word of a command agrees with its row, and a word that agrees with a row is the word of the
command whose operands stand in its other bits. -/
theorem decodingFollowsTheMasksOfTheTable : Obligations.DecodingFollowsTheMasksOfTheTable := by
  unfold Obligations.DecodingFollowsTheMasksOfTheTable
  intro cw
  simp only [decode_eq_ok_iff]
  refine ⟨⟨?_, fun h => ?_⟩, ⟨?_, fun h => ?_⟩, ⟨?_, fun h => ?_⟩, ⟨?_, fun h => ?_⟩, ⟨?_, fun h => ?_⟩,
    ⟨?_, fun h => ?_⟩⟩
  · rintro ⟨d, rfl⟩
    exact rm32Enc d
  · exact ⟨_, (encode_rm32Enc_eq_or _).trans (eq_or_setWidth_of_and_allOnes_shiftLeft 6 h).symm⟩
  · rintro ⟨w, rfl⟩
    exact rm32Dech w
  · exact ⟨_, (encode_rm32Dech_eq_or _).trans (eq_or_setWidth_of_and_allOnes_shiftLeft 32 h).symm⟩
  · rintro rfl
    exact rm32Decs
  · exact h.symm.trans BitVec.and_allOnes
  · rintro ⟨p, rfl⟩
    exact plscEnc p
  · exact ⟨_, (encode_plscEnc_eq_or _).trans (eq_or_setWidth_of_and_allOnes_shiftLeft 7 h).symm⟩
  · rintro ⟨m, sh, q, rfl⟩
    exact plscEncp m sh q
  · exact ⟨_, _, _, (encode_plscEncp_eq_or _).trans (eq_or_setWidth_of_and_allOnes_shiftLeft 7 h).symm⟩
  · rintro ⟨c, sft, rfl⟩
    exact plscDec c sft
  · exact ⟨_, _, encode_plscDec_of_and_mask h⟩

/-- Settles O41: each word is the word of its command. -/
theorem wordsOfTheSpecDecodeAsItSays : Obligations.WordsOfTheSpecDecodeAsItSays := by
  unfold Obligations.WordsOfTheSpecDecodeAsItSays
  simp only [decode_eq_ok_iff]
  decide

end Sys2Proof
end

/-! # Steps and runs (60_exceptions.md, 70_reset_and_hazards.md)

What the block does with each kind of host event, the state that commands other than `PLSC.DEC` leave alone, and the
runs of a host that keeps its contract. -/

section

namespace Sys2Proof.Machine

/-! ## One step for each host event (30_encoding.md R61, 70_reset_and_hazards.md R200) -/

theorem step_of_idle {s : State} (h : s.host = []) : step s = .next s := by
  rw [step, h]
  rfl

theorem step_of_reset {s : State} {rest : List HostEvent} (h : s.host = .reset :: rest) :
    step s = .next (assertReset rest s) := by
  rw [step, h]
  rfl

/-- What a word performed on a window answers under the parameters `c`: the same response in every state, one that is
added to the earlier ones (10_state.md R31, 30_encoding.md R61). -/
def Answers (c : Params) (cw : CmdWord) (din : Window) (r : Response) : Prop :=
  ∀ s : State, s.params = c → s.din = din → ∃ t : State, performWord cw s = .next t ∧
    t.responses = s.responses ++ [r] ∧ t.params = c ∧ t.host = s.host

/-- Every word is answered, legal or not. -/
theorem exists_answers (c : Params) (cw : CmdWord) (din : Window) : ∃ r, Answers c cw din r := by
  let base : State := { State.reset with params := c, din := din }
  obtain ⟨r, t₀, -, hbase, -, hr, -⟩ := performWord_response cw base base rfl rfl
  refine ⟨r, fun s hc hdin => ?_⟩
  obtain ⟨r', t, t', hs, hbase', ht, hr', hparams, hhost⟩ := performWord_response cw s base hc.symm hdin.symm
  obtain rfl := next_inj (hbase.symm.trans hbase')
  obtain rfl : r = r' := by simpa [hr'] using hr.symm
  exact ⟨t, hs, ht, hparams.trans hc, hhost⟩

/-- A step on a presented command adds what its word answers and takes the event. -/
theorem step_of_answers {s : State} {cw : CmdWord} {din : Window} {rest : List HostEvent} {r : Response}
    (hhost : s.host = .command cw din :: rest) (hfits : windowFits s.params.sw din = true)
    (hr : Answers s.params cw din r) :
    ∃ t : State, step s = .next t ∧ t.responses = s.responses ++ [r] ∧ t.params = s.params ∧ t.host = rest := by
  obtain ⟨t, hperform, hresponses, hparams, hrest⟩ := hr (accept din rest s) rfl rfl
  exact ⟨t, (step_of_command hhost hfits).trans hperform, hresponses, hparams, hrest⟩

/-- An event that keeps the contract is taken, and nothing but the event is taken. -/
theorem step_of_keepsContract {s : State} {e : HostEvent} {rest : List HostEvent} (hhost : s.host = e :: rest)
    (he : e.keepsContract s.params = true) : ∃ t : State, step s = .next t ∧ t.params = s.params ∧ t.host = rest := by
  cases e with
  | command cw din =>
    obtain ⟨r, hr⟩ := exists_answers s.params cw din
    obtain ⟨t, hstep, -, hparams, hrest⟩ := step_of_answers hhost he hr
    exact ⟨t, hstep, hparams, hrest⟩
  | reset => exact ⟨_, step_of_reset hhost, rfl, rfl⟩
  | commandOverlap => cases he
  | operandsNotHeld => cases he

/-- An event that breaks the contract is refused (93_implementation_defined.md U2, U3, U12). -/
theorem step_of_not_keepsContract {s : State} {e : HostEvent} {rest : List HostEvent} (hhost : s.host = e :: rest)
    (he : e.keepsContract s.params = false) : ∃ r, step s = .refused r := by
  rw [step, hhost]
  cases e with
  | command cw din => exact ⟨.sampleOutOfRange, if_neg (Bool.eq_false_iff.mp he)⟩
  | reset => cases he
  | commandOverlap => exact ⟨_, rfl⟩
  | operandsNotHeld => exact ⟨_, rfl⟩

/-! ## Runs -/

section AnyCore

variable {M : Host.Core} {s t : M.State}

/-- In any machine a run goes on with the state the first step answers. -/
theorem coreRun_succ_of_step (h : M.step s = .next t) (k : Nat) : M.run (k + 1) s = M.run k t := by
  rw [Host.Core.run, h]

/-- In any machine a run that answers a next state answered one at its first step. -/
theorem exists_step_of_coreRun_succ {k : Nat} (h : M.run (k + 1) s = .next t) :
    ∃ u : M.State, M.step s = .next u ∧ M.run k u = .next t := by
  rw [Host.Core.run] at h
  cases hstep : M.step s with
  | next u => exact ⟨u, rfl, by rwa [hstep] at h⟩
  | fault r => rw [hstep] at h; cases h
  | refused r => rw [hstep] at h; cases h

end AnyCore

theorem run_zero (s : State) : Host.Core.run core 0 s = .next s := rfl

theorem run_succ_of_step {s t : State} (h : step s = .next t) (k : Nat) :
    Host.Core.run core (k + 1) s = Host.Core.run core k t :=
  coreRun_succ_of_step (M := core) h k

theorem exists_step_of_run_succ {k : Nat} {s t : State} (h : Host.Core.run core (k + 1) s = .next t) :
    ∃ u : State, step s = .next u ∧ Host.Core.run core k u = .next t :=
  exists_step_of_coreRun_succ (M := core) h

/-- A step on a host that keeps its contract goes on, and the host still keeps it. -/
theorem step_of_hostKeepsContract {s : State} (h : s.hostKeepsContract = true) :
    ∃ t : State, step s = .next t ∧ t.hostKeepsContract = true := by
  cases hhost : s.host with
  | nil => exact ⟨s, step_of_idle hhost, h⟩
  | cons e rest =>
    rw [State.hostKeepsContract, hhost, List.all_cons, Bool.and_eq_true] at h
    obtain ⟨t, hstep, hparams, hrest⟩ := step_of_keepsContract hhost h.1
    exact ⟨t, hstep, by rw [State.hostKeepsContract, hparams, hrest, h.2]⟩

/-- One response for each command of the host's list, each the one its word answers on its own window. -/
theorem run_answers_each_command (host : List HostEvent) (s : State) (hhost : s.host = host)
    (hcontract : ∀ e ∈ host, e.keepsContract s.params = true) (hreset : .reset ∉ host) :
    ∃ (t : State) (rs : List Response), Host.Core.run core host.length s = .next t ∧ t.host = [] ∧
      t.responses = s.responses ++ rs ∧ rs.length = host.length ∧ t.params = s.params ∧
      ∀ (k : Nat) (cw : CmdWord) (din : Window), host[k]? = some (.command cw din) →
        ∃ r, rs[k]? = some r ∧ Answers s.params cw din r := by
  induction host generalizing s with
  | nil => exact ⟨s, [], run_zero s, hhost, by simp, rfl, rfl, by simp⟩
  | cons e rest ih =>
    have he := hcontract e List.mem_cons_self
    cases e with
    | command cw din =>
      obtain ⟨r, hr⟩ := exists_answers s.params cw din
      obtain ⟨u, hstep, hresponses, hparams, hrest⟩ := step_of_answers hhost he hr
      obtain ⟨t, rs, hrun, hdone, hrs, hlength, hparams', hanswers⟩ := ih u hrest
        (fun e hmem => hparams ▸ hcontract e (.tail _ hmem)) (fun hmem => hreset (.tail _ hmem))
      refine ⟨t, r :: rs, (run_succ_of_step hstep _).trans hrun, hdone, by simp [hrs, hresponses], by simp [hlength],
        hparams'.trans hparams, fun k cw' din' hk => ?_⟩
      cases k with
      | zero =>
        obtain ⟨rfl, rfl⟩ : cw = cw' ∧ din = din' := by simpa using hk
        exact ⟨r, rfl, hr⟩
      | succ k => exact hparams ▸ hanswers k cw' din' hk
    | reset => exact absurd List.mem_cons_self hreset
    | commandOverlap => cases he
    | operandsNotHeld => cases he

/-! ## Commands that write no register (10_state.md sections 1 to 3) -/

/-- A command other than `PLSC.DEC` answers the old state with one response more. -/
theorem exec_eq_respond {i : Instr} (h : ∀ c sft, i ≠ .plscDec c sft) (s : State) :
    ∃ r : Response, exec i s = .next (respond r s) := by
  cases i with
  | rm32Enc d => exact ⟨_, exec_rm32Enc d s⟩
  | rm32Dech w => exact ⟨_, exec_rm32Dech w s⟩
  | rm32Decs => exact ⟨_, exec_rm32Decs s⟩
  | plscEnc p => exact ⟨_, exec_plscEnc p s⟩
  | plscEncp modcod short pilots =>
    by_cases htriple : refusedTriple modcod short
    · exact ⟨_, exec_plscEncp_of_refused htriple pilots s⟩
    · exact ⟨_, (exec_plscEncp_of_accepted htriple pilots s).trans (exec_plscEnc _ s)⟩
  | plscDec c sft => exact absurd rfl (h c sft)

theorem sameArchState_refl (s : State) : sameArchState s s := by
  simp [sameArchState]

theorem sameArchState_trans {s t u : State} (hst : sameArchState s t) (htu : sameArchState t u) :
    sameArchState s u := by
  unfold sameArchState at *
  grind

/-- Taking a command and answering it leaves the registers alone. -/
theorem sameArchState_respond_accept (r : Response) (din : Window) (rest : List HostEvent) (s : State) :
    sameArchState s (respond r (accept din rest s)) := by
  simp [sameArchState]

/-- What the host still does holds no reset and no word of `PLSC.DEC`. -/
def HoldsNoDecode (host : List HostEvent) : Prop :=
  .reset ∉ host ∧ ∀ cw din c sft, HostEvent.command cw din ∈ host → decode cw ≠ .ok (.plscDec c sft)

theorem HoldsNoDecode.tail {e : HostEvent} {rest : List HostEvent} (h : HoldsNoDecode (e :: rest)) :
    HoldsNoDecode rest :=
  ⟨fun hmem => h.1 (.tail e hmem), fun cw din c sft hmem => h.2 cw din c sft (.tail e hmem)⟩

/-- A step before the next `PLSC.DEC` or reset leaves the registers alone. -/
theorem step_of_holdsNoDecode {s t : State} (h : HoldsNoDecode s.host) (hstep : step s = .next t) :
    sameArchState s t ∧ HoldsNoDecode t.host := by
  rcases step_cases hstep with
    ⟨-, rfl⟩ | ⟨rest, hhost, -⟩ | ⟨cw, din, rest, hhost, -, ⟨i, hdecode, hexec⟩ | ⟨e, -, rfl⟩⟩
  · exact ⟨sameArchState_refl t, h⟩
  · exact absurd (hhost ▸ List.mem_cons_self) h.1
  · have hi : ∀ c sft, i ≠ .plscDec c sft := fun c sft hi =>
      h.2 cw din c sft (hhost ▸ List.mem_cons_self) (hi ▸ hdecode)
    obtain ⟨r, hr⟩ := exec_eq_respond hi (accept din rest s)
    obtain rfl := next_inj (hr.symm.trans hexec)
    exact ⟨sameArchState_respond_accept r din rest s, (hhost ▸ h).tail⟩
  · exact ⟨sameArchState_raise_accept _ din rest s, (hhost ▸ h).tail⟩

/-! ## The obligations -/

/-- Settles O52: a step on a host that keeps its contract goes on and keeps the contract, so any number of steps
does. -/
theorem aRunNeverStopsWhileTheHostKeepsItsContract : Obligations.ARunNeverStopsWhileTheHostKeepsItsContract := by
  unfold Obligations.ARunNeverStopsWhileTheHostKeepsItsContract
  intro s hcontract k
  induction k generalizing s with
  | zero => exact ⟨s, run_zero s⟩
  | succ k ih =>
    obtain ⟨t, hstep, hkept⟩ := step_of_hostKeepsContract hcontract
    rw [run_succ_of_step hstep]
    exact ih t hkept

/-- Settles O54: every step of such a run leaves the registers alone, by induction on the number of steps. -/
theorem resultsStayUntilTheNextDecodeOrReset : Obligations.ResultsStayUntilTheNextDecodeOrReset := by
  unfold Obligations.ResultsStayUntilTheNextDecodeOrReset
  intro k s t hreset hdec hrun
  have hquiet : HoldsNoDecode s.host := ⟨hreset, hdec⟩
  clear hreset hdec
  induction k generalizing s with
  | zero => exact next_inj hrun ▸ sameArchState_refl s
  | succ k ih =>
    obtain ⟨u, hstep, hrest⟩ := exists_step_of_run_succ hrun
    obtain ⟨hsame, hquiet'⟩ := step_of_holdsNoDecode hquiet hstep
    exact sameArchState_trans hsame (ih u hrest hquiet')

/-- Settles O53: by induction on the host's list, where what a word answers depends on the parameters and its own
window alone. -/
theorem everyPresentedCommandIsAnswered : Obligations.EveryPresentedCommandIsAnswered := by
  unfold Obligations.EveryPresentedCommandIsAnswered
  intro s hcontract hreset
  obtain ⟨t, rs, hrun, hdone, hrs, hlength, hparams, hanswers⟩ :=
    run_answers_each_command s.host s rfl (List.all_eq_true.mp hcontract) hreset
  refine ⟨t, rs, hrun, hdone, hrs, hlength, hparams, fun k cw din hk => ?_⟩
  obtain ⟨r, hget, hr⟩ := hanswers k cw din hk
  obtain ⟨v, hperform, hresponses, -⟩ := hr { s with din := din } rfl rfl
  exact ⟨r, v, hget, hperform, hresponses⟩

/-- Settles O35: one case for each command but `PLSC.DEC`. -/
theorem onlyPlscDecWritesState : Obligations.OnlyPlscDecWritesState := fun _ s h => exec_eq_respond h s

/-- Settles O42: the step takes the command and performs its word, which decodes to `i`. -/
theorem aStepRunsTheDecodedCommand : Obligations.AStepRunsTheDecodedCommand := by
  unfold Obligations.AStepRunsTheDecodedCommand
  intro s cw din rest i hhost hfits hdecode
  rw [step_of_command hhost hfits, performWord, hdecode, accept]

/-- Settles O43: the step takes the command and raises the error report, which writes no register. -/
theorem anIllegalWordIsReportedAndWritesNothing : Obligations.AnIllegalWordIsReportedAndWritesNothing := by
  unfold Obligations.AnIllegalWordIsReportedAndWritesNothing
  intro s cw din rest e hhost hfits hdecode
  rw [step_of_command hhost hfits, performWord_of_decode_eq_error hdecode, raise_eq, accept]

/-- Settles O45: an idle step changes nothing, and every word is answered. -/
theorem eachPresentedCommandGetsOneResponse : Obligations.EachPresentedCommandGetsOneResponse := by
  unfold Obligations.EachPresentedCommandGetsOneResponse
  refine ⟨fun s h => step_of_idle h, fun s cw din rest hhost hfits => ?_⟩
  obtain ⟨r, hr⟩ := exists_answers s.params cw din
  obtain ⟨t, hstep, hresponses, -, hrest⟩ := step_of_answers hhost hfits hr
  exact ⟨t, r, hstep, hresponses, hrest, by simp [State.responsePort, hresponses]⟩

/-- Settles O46: the step answers the reset state, whose ports show free values since `DEC_VALID` is 0. -/
theorem resetClearsDecValidAndTheResponse : Obligations.ResetClearsDecValidAndTheResponse := by
  unfold Obligations.ResetClearsDecValidAndTheResponse
  refine ⟨⟨rfl, rfl⟩, fun s rest hhost => ⟨_, step_of_reset hhost, rfl, rfl, rfl, rfl, ?_⟩⟩
  rw [State.ports, assertReset_decValid, if_neg Bool.false_ne_true]

/-- Settles O47: an event is taken or refused according to the contract, and an idle host breaks none. -/
theorem aStepIsRefusedExactlyWhenTheHostBreaksItsContract :
    Obligations.AStepIsRefusedExactlyWhenTheHostBreaksItsContract := by
  unfold Obligations.AStepIsRefusedExactlyWhenTheHostBreaksItsContract
  intro s
  cases hhost : s.host with
  | nil => simp [step_of_idle hhost]
  | cons e rest =>
    cases he : e.keepsContract s.params with
    | true =>
      obtain ⟨t, hstep, -⟩ := step_of_keepsContract hhost he
      simp [hstep, he]
    | false =>
      obtain ⟨r, hstep⟩ := step_of_not_keepsContract hhost he
      simp [hstep, he]

/-- Settles O48: one case for each thing a step can do; a `PLSC.DEC` sets `DEC_VALID`, reset clears it, any other
command leaves it. -/
theorem decValidIsSetByPlscDecAndClearedByResetOnly : Obligations.DecValidIsSetByPlscDecAndClearedByResetOnly := by
  unfold Obligations.DecValidIsSetByPlscDecAndClearedByResetOnly
  intro s t hstep
  rcases step_cases hstep with
    ⟨hhost, rfl⟩ | ⟨rest, hhost, rfl⟩ | ⟨cw, din, rest, hhost, -, ⟨i, hdecode, hexec⟩ | ⟨e, hdecode, rfl⟩⟩
  · simp [hhost]
  · simp [hhost]
  · by_cases hi : ∃ c sft, i = .plscDec c sft
    · obtain ⟨c, sft, rfl⟩ := hi
      obtain ⟨p, m, u, hdone⟩ := execPlscDec_completes c sft (accept din rest s)
      obtain rfl := next_inj (hdone.symm.trans hexec)
      exact iff_of_true (finishDecode_decValid ..) (.inl ⟨cw, din, rest, c, sft, hhost, hdecode⟩)
    · obtain ⟨r, hr⟩ := exec_eq_respond (fun c sft h => hi ⟨c, sft, h⟩) (accept din rest s)
      obtain rfl := next_inj (hr.symm.trans hexec)
      have hother (c sft : Bool) : i ≠ .plscDec c sft := fun h => hi ⟨c, sft, h⟩
      simp [hhost, hdecode, hother]
  · simp [hhost, hdecode]

end Sys2Proof.Machine
end

/-! # Distances, linearity and decoding (40_rm_codec.md sections 2 and 3)

Both codes are linear with few distances, so that few errors are corrected; soft decoding of signs is hard decoding;
and the outer code is decoded by decoding the inner code twice. -/

section

namespace Sys2Proof.Machine

/-! ## Bits counted along a sequence (00_scope.md R9, R10) -/

/-- The bits of a word counted along its sequence. -/
theorem popcount_eq_sum_getMsbD {n : Nat} (w : BitVec n) :
    popcount w = ∑ i ∈ Finset.range n, (w.getMsbD i).toNat := by
  rw [popcount, popcountBelow_eq_sum, ← Finset.sum_range_reflect]
  refine Finset.sum_congr rfl fun i hi => ?_
  simp [BitVec.getMsbD, Finset.mem_range.mp hi]

@[simp] theorem popcount_zero (n : Nat) : popcount 0#n = 0 := by
  simp [popcount_eq_sum_getMsbD]

theorem popcount_xor_le {n : Nat} (a b : BitVec n) : popcount (a ^^^ b) ≤ popcount a + popcount b := by
  simp only [popcount_eq_sum_getMsbD, ← Finset.sum_add_distrib]
  refine Finset.sum_le_sum fun i _ => ?_
  rw [BitVec.getMsbD_xor]
  cases a.getMsbD i <;> cases b.getMsbD i <;> decide

/-- The Hamming distance satisfies the triangle inequality. -/
theorem popcount_xor_triangle {n : Nat} (w a b : BitVec n) :
    popcount (a ^^^ b) ≤ popcount (w ^^^ a) + popcount (w ^^^ b) := by
  have hab : a ^^^ b = (w ^^^ a) ^^^ (w ^^^ b) := by
    rw [BitVec.xor_comm w a, BitVec.xor_assoc, ← BitVec.xor_assoc w w b, BitVec.xor_self, BitVec.zero_xor]
  rw [hab]
  exact popcount_xor_le _ _

theorem bipolar_eq (b : Bool) : bipolar b = 1 - 2 * (b.toNat : Int) := by
  cases b <;> rfl

/-- Two words that correlate as `±1` values agree in all but as many places as their distance. -/
theorem sum_bipolar_mul_bipolar {n : Nat} (y w : BitVec n) (a : Int) :
    ∑ i ∈ Finset.range n, bipolar (y.getMsbD i) * (a * bipolar (w.getMsbD i)) =
      a * (n - 2 * (popcount (w ^^^ y) : Int)) := by
  have hterm (i : Nat) : bipolar (y.getMsbD i) * (a * bipolar (w.getMsbD i)) =
      a * (1 - 2 * (((w ^^^ y).getMsbD i).toNat : Int)) := by
    rw [← bipolar_eq, BitVec.getMsbD_xor, bipolar_xor]
    ring
  simp only [hterm, ← Finset.mul_sum, popcount_eq_sum_getMsbD]
  simp [Finset.sum_sub_distrib, Finset.mul_sum]

/-! ## The least word of the greatest value (00_scope.md R12) -/

/-- `p` is what a decoder that prefers greater values of `f` selects: no word has a greater value, and no lesser word
has the same one. -/
structure IsLeastMax {n : Nat} (f : BitVec n → Int) (p : BitVec n) : Prop where
  le : ∀ q, f q ≤ f p
  least : ∀ q, f q = f p → p.toNat ≤ q.toNat

section Selection

variable {n : Nat} {f g : BitVec n → Int} {p q : BitVec n}

theorem IsLeastMax.unique (hp : IsLeastMax f p) (hq : IsLeastMax f q) : p = q := by
  have hval : f p = f q := le_antisymm (hq.le p) (hp.le q)
  exact BitVec.eq_of_toNat_eq (le_antisymm (hp.least q hval.symm) (hq.least p hval))

/-- A word that beats all others is selected. -/
theorem isLeastMax_of_lt (h : ∀ q, q ≠ p → f q < f p) : IsLeastMax f p where
  le q := (eq_or_ne q p).elim (fun hq => hq ▸ le_rfl) fun hq => (h q hq).le
  least q hval := by
    by_cases hq : q = p
    · rw [hq]
    · exact absurd hval (h q hq).ne

/-- The selection depends on the order of the values alone. -/
theorem IsLeastMax.congr (h : ∀ x y, g x ≤ g y ↔ f x ≤ f y) (hp : IsLeastMax f p) : IsLeastMax g p where
  le q := (h q p).mpr (hp.le q)
  least q hval := hp.least q (le_antisymm (hp.le q) ((h p q).mp hval.ge))

end Selection

/-- `dech64` finds the least distance, and the least value at that distance (40_rm_codec.md R90). -/
theorem dech64_spec (adj : Bool) (r : CodeWord) :
    (dech64 adj r).2 = dist64 adj r (dech64 adj r).1 ∧ (∀ q, (dech64 adj r).2 ≤ dist64 adj r q) ∧
      ∀ q, (dist64 adj r q : Int) = (dech64 adj r).2 → (dech64 adj r).1.toNat ≤ q.toNat := by
  unfold dech64
  generalize hbest : argminUpTo 127 _ = best
  exact argminUpTo_ofNat_spec (by decide) (fun q => (dist64 adj r q : Int)) hbest

/-! Each decoder answers the selected word with its value, and is determined by that. -/

theorem dech32_isLeastMax (w : InnerWord) : IsLeastMax (fun d => -(dist32 w d : Int)) (dech32 w).1 := by
  obtain ⟨hval, hmin, hleast⟩ := dech32_spec w
  rw [hval] at hmin hleast
  exact ⟨fun e => neg_le_neg (hmin e), fun e he => hleast e (neg_inj.mp he)⟩

theorem decs32_isLeastMax (v : Nat → Int) : IsLeastMax (corr32 v) (decs32 v).1 := by
  obtain ⟨hval, hmax, hleast⟩ := decs32_spec v
  rw [hval] at hmax hleast
  exact ⟨hmax, hleast⟩

theorem dech64_isLeastMax (adj : Bool) (r : CodeWord) :
    IsLeastMax (fun p => -(dist64 adj r p : Int)) (dech64 adj r).1 := by
  obtain ⟨hval, hmin, hleast⟩ := dech64_spec adj r
  rw [hval] at hmin hleast
  exact ⟨fun q => neg_le_neg (hmin q), fun q hq => hleast q (neg_inj.mp hq)⟩

theorem decs64_isLeastMax (adj : Bool) (v : Nat → Int) : IsLeastMax (corr64 adj v) (decs64 adj v).1 := by
  obtain ⟨hval, hmax, hleast⟩ := decs64_spec adj v
  rw [hval] at hmax hleast
  exact ⟨hmax, hleast⟩

theorem dech32_eq_of_isLeastMax {w : InnerWord} {d : BitVec 6}
    (h : IsLeastMax (fun e => -(dist32 w e : Int)) d) : dech32 w = (d, (dist32 w d : Int)) := by
  obtain rfl := h.unique (dech32_isLeastMax w)
  exact Prod.ext rfl (dech32_spec w).1

theorem decs32_eq_of_isLeastMax {v : Nat → Int} {d : BitVec 6} (h : IsLeastMax (corr32 v) d) :
    decs32 v = (d, corr32 v d) := by
  obtain rfl := h.unique (decs32_isLeastMax v)
  exact Prod.ext rfl (decs32_spec v).1

theorem dech64_eq_of_isLeastMax {adj : Bool} {r : CodeWord} {p : BitVec 7}
    (h : IsLeastMax (fun q => -(dist64 adj r q : Int)) p) : dech64 adj r = (p, (dist64 adj r p : Int)) := by
  obtain rfl := h.unique (dech64_isLeastMax adj r)
  exact Prod.ext rfl (dech64_spec adj r).1

theorem decs64_eq_of_isLeastMax {adj : Bool} {v : Nat → Int} {p : BitVec 7} (h : IsLeastMax (corr64 adj v) p) :
    decs64 adj v = (p, corr64 adj v p) := by
  obtain rfl := h.unique (decs64_isLeastMax adj v)
  exact Prod.ext rfl (decs64_spec adj v).1

/-! ## The inner code (40_rm_codec.md section 2) -/

/-- Row `r` of `G` has the binary digit `r` of each position. -/
theorem seq32_genRow {r j : Nat} (hr : r < 5) (hj : j < 32) : seq32 (genRow r) j = j.testBit r := by
  have hdigits : ∀ r < 5, ∀ j < 32, seq32 (genRow r) j = j.testBit r := by decide
  exact hdigits r hr j hj

theorem seq32_gate (b : Bool) (w : InnerWord) (j : Nat) : seq32 (gate b w) j = (b && seq32 w j) := by
  cases b <;> simp [gate, seq32]

/-- The closed form of a codeword bit (40_rm_codec.md section 2). -/
theorem seq32_enc32 (d : BitVec 6) {j : Nat} (hj : j < 32) :
    seq32 (enc32 d) j =
      (d.getLsbD 0 ^^ (d.getLsbD 5 && j.testBit 0) ^^ (d.getLsbD 4 && j.testBit 1) ^^ (d.getLsbD 3 && j.testBit 2)
        ^^ (d.getLsbD 2 && j.testBit 3) ^^ (d.getLsbD 1 && j.testBit 4)) := by
  rw [enc32, seq32_xor, seq32_gate_genRow_five _ hj, Bool.xor_comm]
  simp [seq32_gate, seq32_genRow _ hj]

theorem gate_xor (a b : Bool) (w : InnerWord) : gate (a ^^ b) w = gate a w ^^^ gate b w := by
  cases a <;> cases b <;> simp [gate]

/-- Property (a): the inner code is linear. -/
theorem enc32_xor (a b : BitVec 6) : enc32 (a ^^^ b) = enc32 a ^^^ enc32 b := by
  simp only [enc32, BitVec.getLsbD_xor, gate_xor]
  ac_rfl

theorem enc32_one : enc32 1#6 = 0xFFFFFFFF#32 := by decide

/-- The weights of the 63 codewords other than 0. -/
theorem popcount_enc32 (d : BitVec 6) (h : d ≠ 0#6) :
    popcount (enc32 d) = 16 ∨ (popcount (enc32 d) = 32 ∧ d = 1#6) := by
  revert d
  decide

/-- Property (d): the distance of two codewords is the weight of a third. -/
theorem popcount_enc32_xor_enc32 {a b : BitVec 6} (h : a ≠ b) :
    popcount (enc32 a ^^^ enc32 b) = 16 ∨ (popcount (enc32 a ^^^ enc32 b) = 32 ∧ a ^^^ b = 1#6) := by
  rw [← enc32_xor]
  exact popcount_enc32 _ (mt BitVec.xor_eq_zero_iff.mp h)

theorem le_dist32_add_dist32 (w : InnerWord) {a b : BitVec 6} (h : a ≠ b) : 16 ≤ dist32 w a + dist32 w b := by
  have htriangle : popcount (enc32 a ^^^ enc32 b) ≤ dist32 w a + dist32 w b := popcount_xor_triangle w _ _
  rcases popcount_enc32_xor_enc32 h with h16 | ⟨h32, -⟩ <;> omega

/-- A word within half the least distance of a codeword is decoded to it. -/
theorem dech32_of_dist32_le {w : InnerWord} {d : BitVec 6} (h : dist32 w d ≤ 7) :
    dech32 w = (d, (dist32 w d : Int)) := by
  refine dech32_eq_of_isLeastMax (isLeastMax_of_lt fun e he => ?_)
  have hsum := le_dist32_add_dist32 w he
  omega

/-- The correlation with the values `±a` of the bits of a word. -/
theorem corr32_of_signs {v : Nat → Int} {w : InnerWord} {a : Int} (hv : ∀ j < 32, v j = a * bipolar (seq32 w j))
    (d : BitVec 6) : corr32 v d = a * (32 - 2 * (dist32 w d : Int)) := by
  rw [corr32, sumTo_eq_sum, Finset.sum_congr rfl fun j hj => by rw [hv j (Finset.mem_range.mp hj)]]
  exact sum_bipolar_mul_bipolar (enc32 d) w a

/-- A correlation with positive multiples of signs grows as the distance falls. -/
theorem signs_le_iff {a : Int} (ha : 0 < a) (n : Int) (x y : Nat) :
    a * (n - 2 * (x : Int)) ≤ a * (n - 2 * (y : Int)) ↔ -(x : Int) ≤ -(y : Int) := by
  rw [mul_le_mul_iff_right₀ ha]
  omega

/-- Soft decoding of the values `±a` is hard decoding of their bits. -/
theorem decs32_of_signs {v : Nat → Int} {w : InnerWord} {a : Int} (ha : 0 < a)
    (hv : ∀ j < 32, v j = a * bipolar (seq32 w j)) :
    decs32 v = ((dech32 w).1, a * (32 - 2 * (dech32 w).2)) := by
  have hcorr := corr32_of_signs hv
  have hbest : IsLeastMax (corr32 v) (dech32 w).1 :=
    (dech32_isLeastMax w).congr fun x y => by rw [hcorr, hcorr, signs_le_iff ha]
  rw [decs32_eq_of_isLeastMax hbest, hcorr, (dech32_spec w).1]

theorem corr32_congr {v v' : Nat → Int} (h : ∀ j < 32, v' j = v j) : corr32 v' = corr32 v := by
  funext d
  rw [corr32, corr32, sumTo_eq_sum, sumTo_eq_sum]
  exact Finset.sum_congr rfl fun j hj => by rw [h j (Finset.mem_range.mp hj)]

/-- `decs32` reads 32 soft values. -/
theorem decs32_congr {v v' : Nat → Int} (h : ∀ j < 32, v' j = v j) : decs32 v' = decs32 v := by
  unfold decs32
  rw [corr32_congr h]

/-! ## The (64,7) code (40_rm_codec.md section 3) -/

/-- A sum over the pairs of neighbours is the sum over all. -/
theorem sum_range_two_mul {M : Type} [AddCommMonoid M] (f : Nat → M) (n : Nat) :
    ∑ i ∈ Finset.range (2 * n), f i = ∑ j ∈ Finset.range n, (f (2 * j) + f (2 * j + 1)) := by
  induction n with
  | zero => rfl
  | succ n ih =>
    rw [Nat.mul_add_one, Finset.sum_range_succ, Finset.sum_range_succ, ih, Finset.sum_range_succ _ n, add_assoc]

/-- The 64 positions are those of the two copies of the 32 inner code bits. -/
theorem sum_range_pos {M : Type} [AddCommMonoid M] (adj : Bool) (f : Nat → M) :
    ∑ i ∈ Finset.range 64, f i = ∑ j ∈ Finset.range 32, (f (pos adj j 0) + f (pos adj j 1)) := by
  cases adj with
  | true => exact sum_range_two_mul f 32
  | false =>
    rw [Finset.sum_add_distrib, show 64 = 32 + 32 from rfl, Finset.sum_range_add]
    simp [pos, add_comm]

theorem datawordOf_xor (p q : BitVec 7) : datawordOf (p ^^^ q) = datawordOf p ^^^ datawordOf q :=
  BitVec.extractLsb'_xor

theorem externalOf_xor (p q : BitVec 7) : externalOf (p ^^^ q) = (externalOf p ^^ externalOf q) :=
  BitVec.getLsbD_xor

/-- Property (a): the (64,7) code is linear. -/
theorem enc64_xor (adj : Bool) (p q : BitVec 7) : enc64 adj (p ^^^ q) = enc64 adj p ^^^ enc64 adj q := by
  apply seq64_ext
  intro i hi
  rw [seq64_xor, seq64_enc64 adj _ hi, seq64_enc64 adj _ hi, seq64_enc64 adj _ hi, datawordOf_xor, externalOf_xor,
    enc32_xor, seq32_xor, Bool.and_xor_distrib_left]
  simp only [Bool.xor_assoc, Bool.xor_left_comm]

theorem enc64_two (adj : Bool) : enc64 adj 2#7 = 0xFFFFFFFFFFFFFFFF#64 := by
  revert adj
  decide +kernel

/-- Property (b): the bit `p[1]` inverts the codeword. -/
theorem enc64_xor_two (adj : Bool) (p : BitVec 7) :
    enc64 adj (p ^^^ 2#7) = enc64 adj p ^^^ 0xFFFFFFFFFFFFFFFF#64 := by
  rw [enc64_xor, enc64_two]

/-- The weight of a codeword: twice that of the inner codeword, or 32 when the second copy is inverted. -/
theorem popcount_enc64 (adj : Bool) (p : BitVec 7) :
    popcount (enc64 adj p) = if externalOf p then 32 else 2 * popcount (enc32 (datawordOf p)) := by
  have hcopies (j : Nat) (hj : j ∈ Finset.range 32) :
      (seq64 (enc64 adj p) (pos adj j 0)).toNat + (seq64 (enc64 adj p) (pos adj j 1)).toNat =
        if externalOf p then 1 else 2 * (seq32 (enc32 (datawordOf p)) j).toNat := by
    rw [seq64_enc64_pos_zero adj p (Finset.mem_range.mp hj), seq64_enc64_pos_one adj p (Finset.mem_range.mp hj)]
    cases externalOf p <;> cases seq32 (enc32 (datawordOf p)) j <;> rfl
  calc popcount (enc64 adj p)
      = ∑ i ∈ Finset.range 64, (seq64 (enc64 adj p) i).toNat := popcount_eq_sum_getMsbD _
    _ = ∑ j ∈ Finset.range 32, if externalOf p then 1 else 2 * (seq32 (enc32 (datawordOf p)) j).toNat := by
      rw [sum_range_pos adj, Finset.sum_congr rfl hcopies]
    _ = if externalOf p then 32 else 2 * popcount (enc32 (datawordOf p)) := by
      rw [popcount_eq_sum_getMsbD]
      cases externalOf p <;> simp [Finset.mul_sum, seq32]

/-- The value of a dataword and an external bit, `p = d ‖ x` (40_rm_codec.md R88). -/
def valueOf (d : BitVec 6) (x : Bool) : BitVec 7 := d ++ BitVec.ofBool x

@[simp] theorem datawordOf_valueOf (d : BitVec 6) (x : Bool) : datawordOf (valueOf d x) = d := by
  revert d x
  decide

@[simp] theorem externalOf_valueOf (d : BitVec 6) (x : Bool) : externalOf (valueOf d x) = x := by
  revert d x
  decide

@[simp] theorem valueOf_datawordOf_externalOf (p : BitVec 7) : valueOf (datawordOf p) (externalOf p) = p := by
  revert p
  decide

theorem toNat_valueOf (d : BitVec 6) (x : Bool) : (valueOf d x).toNat = 2 * d.toNat + x.toNat := by
  revert d x
  decide

/-- The weights of the 127 codewords other than 0. -/
theorem popcount_enc64_of_ne_zero (adj : Bool) {p : BitVec 7} (h : p ≠ 0#7) :
    popcount (enc64 adj p) = 32 ∨ (popcount (enc64 adj p) = 64 ∧ p = 2#7) := by
  rw [popcount_enc64]
  cases hx : externalOf p with
  | true => exact .inl rfl
  | false =>
    have hp : valueOf (datawordOf p) false = p := hx ▸ valueOf_datawordOf_externalOf p
    have hd : datawordOf p ≠ 0#6 := fun hzero => h (by rw [← hp, hzero]; rfl)
    rcases popcount_enc32 _ hd with h16 | ⟨h32, hone⟩
    · exact .inl (by rw [h16]; rfl)
    · exact .inr ⟨by rw [h32]; rfl, by rw [← hp, hone]; rfl⟩

/-- Property (d): the distance of two codewords is the weight of a third. -/
theorem popcount_enc64_xor_enc64 (adj : Bool) {p q : BitVec 7} (h : p ≠ q) :
    popcount (enc64 adj p ^^^ enc64 adj q) = 32 ∨
      (popcount (enc64 adj p ^^^ enc64 adj q) = 64 ∧ p ^^^ q = 2#7) := by
  rw [← enc64_xor]
  exact popcount_enc64_of_ne_zero adj (mt BitVec.xor_eq_zero_iff.mp h)

theorem le_dist64_add_dist64 (adj : Bool) (r : CodeWord) {p q : BitVec 7} (h : p ≠ q) :
    32 ≤ dist64 adj r p + dist64 adj r q := by
  have htriangle : popcount (enc64 adj p ^^^ enc64 adj q) ≤ dist64 adj r p + dist64 adj r q :=
    popcount_xor_triangle r _ _
  rcases popcount_enc64_xor_enc64 adj h with h32 | ⟨h64, -⟩ <;> omega

/-- A word within half the least distance of a codeword is decoded to it. -/
theorem dech64_of_dist64_le {adj : Bool} {r : CodeWord} {p : BitVec 7} (h : dist64 adj r p ≤ 15) :
    dech64 adj r = (p, (dist64 adj r p : Int)) := by
  refine dech64_eq_of_isLeastMax (isLeastMax_of_lt fun q hq => ?_)
  have hsum := le_dist64_add_dist64 adj r hq
  omega

/-- Up to 15 errors in a codeword are corrected, and counted (40_rm_codec.md section 3). -/
theorem dech64_enc64_xor (adj : Bool) (p : BitVec 7) {e : CodeWord} (h : popcount e ≤ 15) :
    dech64 adj (enc64 adj p ^^^ e) = (p, (popcount e : Int)) := by
  have hdist : dist64 adj (enc64 adj p ^^^ e) p = popcount e := by
    rw [dist64, BitVec.xor_comm (enc64 adj p), BitVec.xor_assoc, BitVec.xor_self, BitVec.xor_zero]
  rw [dech64_of_dist64_le (hdist.trans_le h), hdist]

/-- The correlation with the values `±a` of the bits of a word. -/
theorem corr64_of_signs {adj : Bool} {v : Nat → Int} {r : CodeWord} {a : Int}
    (hv : ∀ i < 64, v i = a * bipolar (seq64 r i)) (p : BitVec 7) :
    corr64 adj v p = a * (64 - 2 * (dist64 adj r p : Int)) := by
  rw [corr64, sumTo_eq_sum, Finset.sum_congr rfl fun i hi => by rw [hv i (Finset.mem_range.mp hi)]]
  exact sum_bipolar_mul_bipolar (enc64 adj p) r a

/-- Soft decoding of the values `±a` is hard decoding of their bits. -/
theorem decs64_of_signs (adj : Bool) {v : Nat → Int} {r : CodeWord} {a : Int} (ha : 0 < a)
    (hv : ∀ i < 64, v i = a * bipolar (seq64 r i)) :
    decs64 adj v = ((dech64 adj r).1, a * (64 - 2 * (dech64 adj r).2)) := by
  have hcorr := corr64_of_signs (adj := adj) hv
  have hbest : IsLeastMax (corr64 adj v) (dech64 adj r).1 :=
    (dech64_isLeastMax adj r).congr fun x y => by rw [hcorr, hcorr, signs_le_iff ha]
  rw [decs64_eq_of_isLeastMax hbest, hcorr, (dech64_spec adj r).1]

/-! ## Recombination (40_rm_codec.md section 3) -/

/-- The soft value of inner code bit `j` when the second copy is as the first, or inverted. -/
def recombined (adj : Bool) (v : Nat → Int) (x : Bool) (j : Nat) : Int :=
  v (pos adj j 0) + bipolar x * v (pos adj j 1)

/-- The correlation with a codeword is that of the recombined values with its inner codeword. -/
theorem corr64_valueOf (adj : Bool) (v : Nat → Int) (d : BitVec 6) (x : Bool) :
    corr64 adj v (valueOf d x) = corr32 (recombined adj v x) d := by
  rw [corr64, corr32, sumTo_eq_sum, sumTo_eq_sum, sum_range_pos adj]
  refine Finset.sum_congr rfl fun j hj => ?_
  rw [seq64_enc64_pos_zero adj _ (Finset.mem_range.mp hj), seq64_enc64_pos_one adj _ (Finset.mem_range.mp hj),
    datawordOf_valueOf, externalOf_valueOf, bipolar_xor, recombined]
  ring

/-- The value of external bit `x` that inner decoding finds is selected, when that of the other external bit is worse
or comes later with the same correlation. -/
theorem decs64_eq_of_recombined {adj : Bool} {v : Nat → Int} (x : Bool) {best other : BitVec 6 × Int}
    (hbest : decs32 (recombined adj v x) = best) (hother : decs32 (recombined adj v !x) = other)
    (hle : other.2 ≤ best.2)
    (htie : other.2 = best.2 → (valueOf best.1 x).toNat ≤ (valueOf other.1 !x).toNat) :
    decs64 adj v = (valueOf best.1 x, best.2) := by
  obtain ⟨hval, hmax, hleast⟩ := decs32_spec (recombined adj v x)
  obtain ⟨-, hmax', hleast'⟩ := decs32_spec (recombined adj v !x)
  rw [hbest] at hval hmax hleast
  rw [hother] at hmax' hleast'
  have hsel : corr64 adj v (valueOf best.1 x) = best.2 := by rw [corr64_valueOf, hval]
  rw [decs64_eq_of_isLeastMax (p := valueOf best.1 x) ⟨fun q => ?_, fun q hq => ?_⟩, hsel]
  all_goals
    obtain ⟨d, y, rfl⟩ : ∃ d y, valueOf d y = q := ⟨_, _, valueOf_datawordOf_externalOf q⟩
    rcases Bool.eq_or_eq_not y x with rfl | rfl
  · rw [hsel, corr64_valueOf]
    exact hmax d
  · rw [hsel, corr64_valueOf]
    exact (hmax' d).trans hle
  · rw [hsel, corr64_valueOf] at hq
    have hd := hleast d hq
    rw [toNat_valueOf, toNat_valueOf]
    omega
  · rw [hsel, corr64_valueOf] at hq
    have htied : other.2 = best.2 := le_antisymm hle (hq ▸ hmax' d)
    have hd := hleast' d (hq.trans htied.symm)
    have hbound := htie htied
    simp only [toNat_valueOf] at hbound ⊢
    omega

/-! ## The obligations -/

/-- Settles O2: `enc32` at position `j` by its closed form. -/
theorem rm32EncAnswersTheClosedForm : Obligations.Rm32EncAnswersTheClosedForm := by
  unfold Obligations.Rm32EncAnswersTheClosedForm
  intro d s
  exact ⟨enc32 d, exec_rm32Enc d s, fun j hj => seq32_enc32 d hj⟩

/-- Settles O3: linearity, the codeword of 1, and the weights. -/
theorem innerCodeIsLinearWithDistanceSixteen : Obligations.InnerCodeIsLinearWithDistanceSixteen := by
  unfold Obligations.InnerCodeIsLinearWithDistanceSixteen
  intro a b
  exact ⟨enc32_xor a b, by rw [enc32_xor, enc32_one], popcount_enc32_xor_enc32⟩

/-- Settles O5: any other dataword is at distance 9 or more, by the triangle inequality. -/
theorem rm32DechCorrectsUpToSevenErrors : Obligations.Rm32DechCorrectsUpToSevenErrors := by
  unfold Obligations.Rm32DechCorrectsUpToSevenErrors
  intro d w s h
  rw [exec_rm32Dech, finish_eq, dech32_of_dist32_le h]
  rfl

/-- Settles O7: `decs32` reads 32 soft values, which are these components. -/
theorem rm32DecsReadsOnlyThirtyTwoComponents : Obligations.Rm32DecsReadsOnlyThirtyTwoComponents := by
  unfold Obligations.Rm32DecsReadsOnlyThirtyTwoComponents
  intro s s' h
  refine ⟨_, _, exec_rm32Decs s, ?_⟩
  rw [exec_rm32Decs, decs32_congr (v := innerSoft s.din) (v' := innerSoft s'.din) h]
  rfl

/-- Settles O8: the correlation with the values `±a` falls as the distance grows, so both decoders select the same
dataword. -/
theorem softAndHardInnerDecodingAgree : Obligations.SoftAndHardInnerDecodingAgree := by
  unfold Obligations.SoftAndHardInnerDecodingAgree
  intro w a s ha hv
  refine ⟨_, _, exec_rm32Dech w s, ?_⟩
  rw [exec_rm32Decs, decs32_of_signs (v := innerSoft s.din) ha hv]
  rfl

/-- Settles O10: linearity, the codeword of 2, and the weights, in both layouts. -/
theorem outerCodeIsLinearWithDistanceThirtyTwo : Obligations.OuterCodeIsLinearWithDistanceThirtyTwo := by
  unfold Obligations.OuterCodeIsLinearWithDistanceThirtyTwo
  intro adj p q
  exact ⟨enc64_xor adj p q, enc64_xor_two adj p, popcount_enc64_xor_enc64 adj⟩

/-- Settles O11: the correlations of each external bit are those of the inner code on the recombined values; the
choice between the two inner decodings follows their metrics, then the order of the values. -/
theorem recombinedInnerDecodingIsOuterDecoding : Obligations.RecombinedInnerDecodingIsOuterDecoding := by
  unfold Obligations.RecombinedInnerDecodingIsOuterDecoding
  intro adj v z r0 r1
  have h0 : decs32 (recombined adj v false) = r0 := rfl
  have h1 : decs32 (recombined adj v true) = r1 := rfl
  clear_value r0 r1
  split_ifs with hlt hgt hle
  · exact decs64_eq_of_recombined false h0 h1 hlt.le fun htied => absurd htied hlt.ne
  · exact decs64_eq_of_recombined true h1 h0 hgt.le fun htied => absurd htied hgt.ne
  · refine decs64_eq_of_recombined false h0 h1 (Int.not_lt.mp hgt) fun _ => ?_
    simp [toNat_valueOf]
    omega
  · refine decs64_eq_of_recombined true h1 h0 (Int.not_lt.mp hlt) fun _ => ?_
    simp [toNat_valueOf]
    omega

/-- Settles O12: the correlation with the signs of the bits falls as the distance grows. -/
theorem outerHardDecodingIsSoftDecodingOfSigns : Obligations.OuterHardDecodingIsSoftDecodingOfSigns := by
  unfold Obligations.OuterHardDecodingIsSoftDecodingOfSigns
  intro adj r best
  have hbest : best = ((dech64 adj r).1, 1 * (64 - 2 * (dech64 adj r).2)) :=
    decs64_of_signs adj one_pos fun i _ => (one_mul _).symm
  rw [hbest]
  exact ⟨rfl, one_mul _⟩

end Sys2Proof.Machine
end

/-! # What `PLSC.DEC` finds and leaves (42_plsc_decoder.md section 4, 43_modcod_params.md section 3)

The value and metric of each mode as a function of the parameters and the window, the state every `PLSC.DEC` answers,
and the rows of the outcome table. -/

section

namespace Sys2Proof.Machine

/-! ## The words and soft values that a mode decodes (42_plsc_decoder.md R131 to R136) -/

/-- A word built from a sequence depends on the 64 bits of it alone. -/
theorem word64_congr {f g : Nat → Bool} (h : ∀ i < 64, f i = g i) : word64 f = word64 g :=
  seq64_ext _ _ fun i hi => by rw [seq64_word64 f i hi, seq64_word64 g i hi, h i hi]

theorem corr64_congr {v v' : Nat → Int} (adj : Bool) (h : ∀ i < 64, v' i = v i) : corr64 adj v' = corr64 adj v := by
  funext p
  rw [corr64, corr64, sumTo_eq_sum, sumTo_eq_sum]
  exact Finset.sum_congr rfl fun i hi => by rw [h i (Finset.mem_range.mp hi)]

/-- `decs64` reads 64 soft values. -/
theorem decs64_congr {v v' : Nat → Int} (adj : Bool) (h : ∀ i < 64, v' i = v i) : decs64 adj v' = decs64 adj v := by
  unfold decs64
  rw [corr64_congr adj h]

/-- The word of a hard mode before descrambling: sliced (R132) or differential (R133). -/
def hardWord (c : Bool) (s : State) : CodeWord :=
  if c then word64 fun i => hbit (demapCoh s.params s.din i) else demapDiff s.params s.din

/-- The value and the metric that `PLSC.DEC` finds in its effective mode (42_plsc_decoder.md R130, R138). -/
def decodeFinds (c sft : Bool) (s : State) : BitVec 7 × Int :=
  if c && sft then decs64 s.params.layoutAdj (descrSoft (demapCoh s.params s.din))
  else dech64 s.params.layoutAdj (descrHard (hardWord c s))

/-- What `PLSC.DEC` leaves in `SOFT` (10_state.md R26; log 13). -/
def softAfter (c sft : Bool) (s : State) : Vector Int 64 := if c && sft then descrambledSoft s else s.soft

/-- The state `PLSC.DEC` answers (42_plsc_decoder.md R139). -/
def decoded (c sft : Bool) (s : State) : State :=
  finishDecode (decodeFinds c sft s).1 (decodeFinds c sft s).2 (c && sft) { s with soft := softAfter c sft s }

/-- The end of every `PLSC.DEC`: one write of the result registers and one response. -/
theorem finishDecode_eq (p : BitVec 7) (m : Int) (soft : Bool) (s : State) :
    finishDecode p m soft s = { writeResults p m soft s with
      responses := s.responses ++ [⟨.ok, p.setWidth 32, m, none⟩] } := rfl

theorem decodeFinds_soft (s : State) :
    decodeFinds true true s = decs64 s.params.layoutAdj (descrSoft (demapCoh s.params s.din)) := rfl

theorem decodeFinds_hard {c sft : Bool} (h : (c && sft) = false) (s : State) :
    decodeFinds c sft s = dech64 s.params.layoutAdj (descrHard (hardWord c s)) := by
  rw [decodeFinds, h, if_neg Bool.false_ne_true]

theorem softAfter_hard {c sft : Bool} (h : (c && sft) = false) (s : State) : softAfter c sft s = s.soft := by
  rw [softAfter, h, if_neg Bool.false_ne_true]

theorem softAt_descrambledSoft (s : State) {i : Nat} (hi : i < 64) :
    softAt (descrambledSoft s) i = descrSoft (demapCoh s.params s.din) i := by
  simp [softAt, descrambledSoft, hi]

/-- Every `PLSC.DEC` answers `decoded`, one case for each effective mode. -/
theorem exec_plscDec (c sft : Bool) (s : State) : exec (.plscDec c sft) s = .next (decoded c sft s) := by
  cases c with
  | false => exact execPlscDec_diff sft s
  | true =>
    cases sft with
    | false => exact execPlscDec_hard s
    | true =>
      have hread : decs64 s.params.layoutAdj (softAt (writeSoft (descrSoft (demapCoh s.params s.din)) s).soft) =
          decodeFinds true true s := decs64_congr _ fun i hi => softAt_writeSoft _ s i hi
      rw [exec, execPlscDec_soft, decodeSoftBuffer, writeSoft_params, hread]
      rfl

/-! ## The answered state, field by field -/

section Decoded

variable (c sft : Bool) (s : State)

@[simp] theorem decoded_params : (decoded c sft s).params = s.params := by simp [decoded]

@[simp] theorem decoded_decPlsc : (decoded c sft s).decPlsc = (decodeFinds c sft s).1 := by simp [decoded]

@[simp] theorem decoded_decMetric : (decoded c sft s).decMetric = (decodeFinds c sft s).2 := by simp [decoded]

@[simp] theorem decoded_decEffSoft : (decoded c sft s).decEffSoft = (c && sft) := by simp [decoded]

@[simp] theorem decoded_decValid : (decoded c sft s).decValid = true := by simp [decoded]

@[simp] theorem decoded_soft : (decoded c sft s).soft = softAfter c sft s := by simp [decoded]

@[simp] theorem decoded_responses : (decoded c sft s).responses =
    s.responses ++ [⟨.ok, zext32 (decodeFinds c sft s).1, (decodeFinds c sft s).2, none⟩] := by simp [decoded]

@[simp] theorem decoded_responsePort : (decoded c sft s).responsePort =
    some ⟨.ok, zext32 (decodeFinds c sft s).1, (decodeFinds c sft s).2, none⟩ := by simp [State.responsePort]

theorem decoded_holdsDerived : HoldsDerived (decoded c sft s) := finishDecode_holdsDerived ..

end Decoded

/-- The value alone decides the registers that are derived from it, so a common value and metric give common
registers. -/
theorem sameArchState_decoded {c sft : Bool} {s s' : State} (h : decodeFinds c sft s' = decodeFinds c sft s)
    (u : Vector Int 64) : sameArchState { decoded c sft s with soft := u } { decoded c sft s' with soft := u } := by
  simp [sameArchState, decoded, h]

theorem responsePort_decoded {c sft : Bool} {s s' : State} (h : decodeFinds c sft s' = decodeFinds c sft s) :
    (decoded c sft s').responsePort = (decoded c sft s).responsePort := by
  rw [decoded_responsePort, decoded_responsePort, h]

/-- What is found depends on the parameters and the window alone (10_state.md R31). -/
theorem decodeFinds_congr (c sft : Bool) {s s' : State} (hp : s'.params = s.params) (hd : s'.din = s.din) :
    decodeFinds c sft s' = decodeFinds c sft s := by
  simp only [decodeFinds, hardWord, hp, hd]

theorem descrambledSoft_congr {s s' : State} (h : ∀ i < 64, demapCoh s'.params s'.din i = demapCoh s.params s.din i) :
    descrambledSoft s' = descrambledSoft s := by
  unfold descrambledSoft descrSoft
  simp only [h _ (Fin.isLt _)]

/-- What a hard mode answers: the least of the values nearest to the descrambled word (40_rm_codec.md R90). -/
theorem exec_plscDec_hardMode {c sft : Bool} (h : (c && sft) = false) (s : State) :
    ∃ (p : BitVec 7) (m : Nat),
      exec (.plscDec c sft) s = .next { writeResults p m false s with
        responses := s.responses ++ [⟨.ok, p.setWidth 32, m, none⟩] } ∧
      m = dist64 s.params.layoutAdj (descrHard (hardWord c s)) p ∧
      (∀ q, m ≤ dist64 s.params.layoutAdj (descrHard (hardWord c s)) q) ∧
      ∀ q, dist64 s.params.layoutAdj (descrHard (hardWord c s)) q = m → p.toNat ≤ q.toNat := by
  have hfinds := decodeFinds_hard h s
  generalize descrHard (hardWord c s) = word at hfinds ⊢
  obtain ⟨hval, hmin, hleast⟩ := dech64_spec s.params.layoutAdj word
  rw [hval] at hmin hleast
  refine ⟨(dech64 s.params.layoutAdj word).1, dist64 s.params.layoutAdj word (dech64 s.params.layoutAdj word).1, ?_,
    rfl, fun q => Int.ofNat_le.mp (hmin q), fun q hq => hleast q (congrArg Nat.cast hq)⟩
  rw [exec_plscDec, decoded, softAfter_hard h, hfinds, h, hval, finishDecode_eq]

/-! ## The outcome table (43_modcod_params.md R168) -/

/-- The classes of the table. -/
theorem modcod_class (m : Nat) : m = 0 ∨ m ∈ Set.Icc 1 11 ∨ m ∈ Set.Icc 12 17 ∨ m ∈ Set.Icc 18 23 ∨
    m ∈ Set.Icc 24 28 ∨ 29 ≤ m := by
  simp only [Set.mem_Icc]
  omega

/-- The derivation gives the rows of the table: one case for each class of MODCODs, then one for each frame size. -/
theorem derived_eq_rowByTable (p : BitVec 7) :
    nModOf p = (rowByTable (modcodOf p).toNat (shortOf p)).1 ∧
      slotsOf p = (rowByTable (modcodOf p).toNat (shortOf p)).2.1 ∧
      nPilotsOf p = if pilotsOf p then (rowByTable (modcodOf p).toNat (shortOf p)).2.2 else 0 := by
  have hdummy := dummyOf_eq_true_iff p
  unfold nPilotsOf slotsOf nModOf rowByTable
  generalize (modcodOf p).toNat = m at hdummy ⊢
  rcases modcod_class m with rfl | ⟨hlo, hhi⟩ | ⟨hlo, hhi⟩ | ⟨hlo, hhi⟩ | ⟨hlo, hhi⟩ | hlo
  · simp [hdummy.mpr rfl, DUMMY_SLOTS, pilotsOf]
  all_goals
    have hreal : dummyOf p = false := by
      rw [← Bool.not_eq_true, hdummy]
      omega
    cases shortOf p
  all_goals
    simp (disch := omega) only [if_pos, if_neg]
    simp [hreal, pilotsOf, SLOT, FEC_NORMAL, FEC_SHORT, PILOT_PERIOD]

/-- A row has pilots exactly when it has a constellation. -/
theorem rowByTable_nPilots_pos_iff (m : Nat) (short : Bool) :
    0 < (rowByTable m short).2.2 ↔ (rowByTable m short).1 ≠ 0 := by
  unfold rowByTable
  split_ifs <;> simp

/-! ## The obligations -/

/-- Settles O19: the sliced bits are the signs of the table's soft values, and `dech64` selects over all 128 values. -/
theorem coherentHardDecodeFindsTheNearestValue : Obligations.CoherentHardDecodeFindsTheNearestValue := by
  unfold Obligations.CoherentHardDecodeFindsTheNearestValue
  intro s
  obtain ⟨p, m, hexec, hdist⟩ := exec_plscDec_hardMode (c := true) (sft := false) rfl s
  refine ⟨p, m, hardWord true s, hexec, fun i hi => ?_, hdist⟩
  rw [← demapCoh_eq_softByTable]
  exact seq64_word64 _ i hi

/-- Settles O21: the accumulated bits are those of the differential demapper, and `dech64` selects over all 128
values. -/
theorem differentialDecodeFindsTheNearestValue : Obligations.DifferentialDecodeFindsTheNearestValue := by
  unfold Obligations.DifferentialDecodeFindsTheNearestValue
  intro sft s
  obtain ⟨p, m, hexec, hdist⟩ := exec_plscDec_hardMode (Bool.false_and sft) s
  have hbit (i : Nat) (hi : i < 64) : (hardWord false s).getMsbD i = diffBit s.params s.din i := seq64_word64 _ i hi
  have hchange (i : Nat) : diffChange s.params s.din i =
      (decide ((dinAt s.din (i + 1)).q * (dinAt s.din i).i - (dinAt s.din (i + 1)).i * (dinAt s.din i).q < 0)
        ^^ (s.params.rotAlt && decide (i % 2 = 0))) := by
    simp only [diffChange, diffIm, Sample.mul, Sample.conj]
    ring_nf
  refine ⟨p, m, hardWord false s, hexec, ?_, fun i hi => ?_, hdist⟩
  · rw [hbit 0 (by decide), diffBit, Bool.xor_false, hchange]
  · rw [hbit (i + 1) (by omega), hbit i (by omega), diffBit, hchange]

/-- Settles O22: the differential mode is the same for both values of `S`, and `SOFT` is written in the soft mode
only. -/
theorem softWithoutCoherentFallsBackToHard : Obligations.SoftWithoutCoherentFallsBackToHard := by
  unfold Obligations.SoftWithoutCoherentFallsBackToHard
  intro s
  refine ⟨(execPlscDec_diff true s).trans (execPlscDec_diff false s).symm, fun c sft => ?_⟩
  exact ⟨_, exec_plscDec c sft s, decoded_decEffSoft c sft s, fun h => by rw [decoded_soft, softAfter_hard h]⟩

/-- Settles O24: the registers hold the derivation uncut, and the derivation gives the rows. -/
theorem plscDecWritesTheRowsOfTheTable : Obligations.PlscDecWritesTheRowsOfTheTable := by
  unfold Obligations.PlscDecWritesTheRowsOfTheTable
  intro c sft s
  have h := decoded_holdsDerived c sft s
  refine ⟨_, exec_plscDec c sft s, ?_⟩
  generalize decoded c sft s = t at h
  obtain ⟨hmod, hslots, hpilots⟩ := derived_eq_rowByTable t.decPlsc
  have hlen := plframeLenOf_le t.decPlsc
  have hpos := rowByTable_nPilots_pos_iff (modcodOf t.decPlsc).toNat (shortOf t.decPlsc)
  have hframe := h.plframeLen
  rw [plframeLenOf, ← h.slots, ← h.nPilots, HDR_LEN, SLOT, PILOT_LEN] at hframe
  rw [← h.plframeLen] at hlen
  simp only [← h.modcod, ← h.short, ← h.pilots, ← h.nMod, ← h.slots, ← h.nPilots] at hmod hslots hpilots hpos
  refine ⟨hmod, hslots, hpilots, by omega, by omega, by omega, hlen, ?_⟩
  rw [hpilots, hmod, ← hpos]
  cases t.hasPilots <;> simp

/-- Settles O26: the answered registers are a function of the parameters and the window. -/
theorem plscDecLeavesNoHistory : Obligations.PlscDecLeavesNoHistory := by
  unfold Obligations.PlscDecLeavesNoHistory
  intro c sft s s' hp hd
  have hfinds := decodeFinds_congr c sft hp hd
  refine ⟨_, _, exec_plscDec c sft s, exec_plscDec c sft s', sameArchState_decoded hfinds s.soft, fun hsoft => ?_,
    responsePort_decoded hfinds⟩
  rw [decoded_soft, decoded_soft, softAfter, softAfter, hsoft, if_pos rfl, if_pos rfl]
  exact descrambledSoft_congr fun i _ => by rw [hp, hd]

/-- Settles O49: `DEC_VALID` is 1 after a `PLSC.DEC`, and any other command answers one response more only. -/
theorem portsShowTheLastDecode : Obligations.PortsShowTheLastDecode := by
  unfold Obligations.PortsShowTheLastDecode
  intro c sft i s hi
  obtain ⟨r, hr⟩ := exec_eq_respond hi (decoded c sft s)
  refine ⟨_, _, exec_plscDec c sft s, hr, rfl, ?_⟩
  rw [State.ports, decoded_decValid, if_pos rfl]

end Sys2Proof.Machine
end

/-! # Encoding and decoding together (42_plsc_decoder.md sections 2 and 6)

What the demappers read from the symbols of a word, the values that each mode recovers from them, and the changes of a
window that a mode does not see. -/

section

namespace Sys2Proof.Machine

/-! ## Symbols with a sign (41_plsc_encoder.md R114) -/

theorem scale_scale (a b : Int) (x : Sample) : Sample.scale a (Sample.scale b x) = Sample.scale (a * b) x := by
  simp [Sample.scale, mul_assoc]

/-- Inverting a bit inverts its symbol. -/
theorem mapsym_xor (c : Params) (b x : Bool) (i : Int) :
    mapsym c (b ^^ x) i = Sample.scale (bipolar x) (mapsym c b i) := by
  rw [mapsym, mapsym, scale_scale, bipolar_xor, mul_comm]

/-- Two quarter turns invert a symbol. -/
theorem mulJ_add_two_mapsym (c : Params) (k : Int) (b : Bool) (i : Int) :
    mulJ (k + 2) (mapsym c b i) = mulJ k (mapsym c (!b) i) := by
  rw [← mulJ_mulJ, ← Bool.xor_true b, mapsym_xor, bipolar_true, scale_neg_one, mulJ_two]

/-! ## The coherent demapper on symbols (42_plsc_decoder.md R131, R132) -/

/-- The coherent soft value of an undisturbed symbol, but for its sign. -/
def softAmplitude (c : Params) : Int := c.amp * if c.refDiag then 2 else 1

theorem softAmplitude_pos {c : Params} (h : 1 ≤ c.amp) : 0 < softAmplitude c := by
  unfold softAmplitude
  split_ifs <;> omega

/-- The demapper turns the symbol's axis back. -/
theorem demapCoh_of_mapsym {c : Params} {w : Window} {b : Bool} {i : Nat} (h : dinAt w (i + 1) = mapsym c b i) :
    demapCoh c w i = softAmplitude c * bipolar b := by
  rw [demapCoh, plscSymbol, h, mapsym, mulJ_scale, mulJ_mulJ, neg_add_cancel, mulJ_zero]
  unfold refVector softAmplitude Sample.scale
  cases c.refDiag <;> simp <;> ring

theorem demapCoh_congr (c : Params) {w w' : Window} {i : Nat} (h : dinAt w' (i + 1) = dinAt w (i + 1)) :
    demapCoh c w' i = demapCoh c w i := by
  rw [demapCoh, demapCoh, plscSymbol, plscSymbol, h]

theorem demapCoh_scale (c : Params) {w w' : Window} {a : Int} {i : Nat}
    (h : dinAt w' (i + 1) = Sample.scale a (dinAt w (i + 1))) : demapCoh c w' i = a * demapCoh c w i := by
  rw [demapCoh, demapCoh, plscSymbol, plscSymbol, h, mulJ_scale, Sample.scale]
  cases c.refDiag <;> simp [mul_add]

theorem mul_neg_iff_neg {a : Int} (ha : 0 < a) (v : Int) : a * v < 0 ↔ v < 0 :=
  smul_neg_iff_of_pos_left ha

theorem hbit_mul {a : Int} (ha : 0 < a) (v : Int) : hbit (a * v) = hbit v :=
  decide_eq_decide.mpr (mul_neg_iff_neg ha v)

theorem hbit_bipolar (b : Bool) : hbit (bipolar b) = b := by
  cases b <;> rfl

/-- Descrambling a soft value multiplies it by the sign of the scrambler's bit. -/
theorem descrSoft_eq (v : Nat → Int) (i : Nat) : descrSoft v i = v i * bipolar (seq64 SCR i) := by
  unfold descrSoft
  cases seq64 SCR i <;> simp

/-! ## The differential demapper on symbols (42_plsc_decoder.md R133) -/

/-- The imaginary part of `x · conj(y)`. -/
def imMulConj (x y : Sample) : Int := (Sample.mul x (Sample.conj y)).q

theorem imMulConj_eq (x y : Sample) : imMulConj x y = x.q * y.i - x.i * y.q := by
  simp only [imMulConj, Sample.mul, Sample.conj]
  ring

theorem imMulConj_scale (a b : Int) (x y : Sample) :
    imMulConj (Sample.scale a x) (Sample.scale b y) = a * b * imMulConj x y := by
  simp only [imMulConj_eq, Sample.scale]
  ring

theorem mulJ_emod (k : Int) (x : Sample) : mulJ (k % 4) x = mulJ k x := by
  rw [mulJ, mulJ, Int.emod_emod]

/-- A common rotation by quarter turns is invisible. -/
theorem imMulConj_mulJ (k : Int) (x y : Sample) : imMulConj (mulJ k x) (mulJ k y) = imMulConj x y := by
  rw [← mulJ_emod k x, ← mulJ_emod k y]
  have hk : k % 4 = 0 ∨ k % 4 = 1 ∨ k % 4 = 2 ∨ k % 4 = 3 := by omega
  rcases hk with hk | hk | hk | hk <;> rw [hk, imMulConj_eq, imMulConj_eq]
  all_goals simp only [mulJ_zero, mulJ_one, mulJ_two, mulJ_three]
  all_goals ring

/-- The axes of neighbouring symbols differ by one quarter turn, forward, or back at the even symbols when the axis
alternates. -/
theorem rho_sub_rho (c : Params) (i : Int) :
    (rho c i - rho c (i - 1)) % 4 = if c.rotAlt && decide (i % 2 = 0) then 3 else 1 := by
  unfold rho
  cases c.rotAlt
  · simp
  · simp
    split_ifs <;> omega

/-- The product of neighbouring symbols shows whether they carry different bits. -/
theorem imMulConj_mapsym (c : Params) (b b' : Bool) (i : Int) :
    imMulConj (mapsym c b i) (mapsym c b' (i - 1)) =
      ((refVector c).i * (refVector c).i + (refVector c).q * (refVector c).q) *
        bipolar (b ^^ b' ^^ (c.rotAlt && decide (i % 2 = 0))) := by
  have hturn : mulJ (rho c i) (refVector c) =
      mulJ (rho c (i - 1)) (mulJ (rho c i - rho c (i - 1)) (refVector c)) := by
    rw [mulJ_mulJ, add_sub_cancel]
  rw [mapsym, mapsym, imMulConj_scale, hturn, imMulConj_mulJ, ← mulJ_emod, rho_sub_rho, bipolar_xor, bipolar_xor]
  cases c.rotAlt && decide (i % 2 = 0) <;> simp [imMulConj_eq] <;> ring

theorem refVector_norm_pos {c : Params} (h : 1 ≤ c.amp) :
    0 < (refVector c).i * (refVector c).i + (refVector c).q * (refVector c).q := by
  have hamp : (0 : Int) < c.amp := by omega
  unfold refVector
  split_ifs <;> simp <;> positivity

/-- The window `w` holds a start-of-frame symbol of bit `f` and the symbols of the word `b`, all of them turned by
`j^k`. -/
structure HoldsFrame (c : Params) (w : Window) (f : Bool) (b : CodeWord) (k : Int) : Prop where
  first : dinAt w 0 = mulJ k (mapsym c f (-1))
  symbols : ∀ i < 64, dinAt w (i + 1) = mulJ k (mapsym c (seq64 b i) i)

/-- The bit of the symbol before symbol `i`. -/
def bitBefore (f : Bool) (b : CodeWord) : Nat → Bool
  | 0 => f
  | i + 1 => seq64 b i

section Frame

variable {c : Params} {w : Window} {f : Bool} {b : CodeWord} {k : Int} (hamp : 1 ≤ c.amp)
  (hw : HoldsFrame c w f b k)
include hw

theorem HoldsFrame.dinAt {i : Nat} (hi : i < 65) :
    dinAt w i = mulJ k (mapsym c (bitBefore f b i) ((i : Int) - 1)) := by
  cases i with
  | zero => exact hw.first
  | succ i =>
    rw [hw.symbols i (by omega), bitBefore]
    simp

include hamp

theorem HoldsFrame.diffChange {i : Nat} (hi : i < 64) :
    diffChange c w i = (seq64 b i ^^ bitBefore f b i) := by
  have hproduct : diffIm w i = imMulConj (mapsym c (seq64 b i) i) (mapsym c (bitBefore f b i) ((i : Int) - 1)) := by
    rw [← imMulConj_mulJ k, ← hw.symbols i hi, ← hw.dinAt (by omega)]
    rfl
  have hparity : decide ((i : Int) % 2 = 0) = decide (i % 2 = 0) := decide_eq_decide.mpr (by omega)
  have hsign : decide (diffIm w i < 0) = (seq64 b i ^^ bitBefore f b i ^^ (c.rotAlt && decide (i % 2 = 0))) := by
    rw [hproduct, imMulConj_mapsym, hparity]
    exact (hbit_mul (refVector_norm_pos hamp) _).trans (hbit_bipolar _)
  rw [Machine.diffChange, hsign, Bool.xor_assoc, Bool.xor_self, Bool.xor_false]

/-- The accumulated bits are those of the word, inverted when the start-of-frame symbol is. -/
theorem HoldsFrame.diffBit {i : Nat} (hi : i < 64) : diffBit c w i = (seq64 b i ^^ f) := by
  induction i with
  | zero => rw [Machine.diffBit, hw.diffChange hamp hi, Bool.xor_false, bitBefore]
  | succ i ih =>
    rw [Machine.diffBit, hw.diffChange hamp hi, ih (by omega), bitBefore, Bool.xor_assoc, ← Bool.xor_assoc (seq64 b i),
      Bool.xor_self, Bool.false_xor]

end Frame

/-! ## Windows that carry the symbols of `PLSC.ENC` -/

/-- The scrambled word of the value `p` with the bits marked in `e` inverted. -/
def receivedWord (c : Params) (p : BitVec 7) (e : CodeWord) : CodeWord := scramble (enc64 c.layoutAdj p) ^^^ e

theorem descrHard_receivedWord (c : Params) (p : BitVec 7) (e : CodeWord) :
    descrHard (receivedWord c p e) = enc64 c.layoutAdj p ^^^ e := by
  rw [descrHard, receivedWord, scramble, scramble, BitVec.xor_assoc, BitVec.xor_assoc, BitVec.xor_comm e,
    ← BitVec.xor_assoc SCR, BitVec.xor_self, BitVec.zero_xor]

/-- Inverting every bit of the received word adds 2 to the value, in the sense of `⊕`. -/
theorem receivedWord_zero_xor_allOnes (c : Params) (p : BitVec 7) :
    receivedWord c p 0#64 ^^^ 0xFFFFFFFFFFFFFFFF#64 = receivedWord c (p ^^^ 2#7) 0#64 := by
  rw [receivedWord, receivedWord, enc64_xor_two, scramble, scramble, BitVec.xor_zero, BitVec.xor_zero,
    BitVec.xor_assoc, BitVec.xor_assoc, BitVec.xor_comm SCR]

theorem out_of_encodesTo {s : State} {p : BitVec 7} {out : Symbols} (h : encodesTo s p out) :
    out = mapWord s.params (scramble (enc64 s.params.layoutAdj p)) := by
  have hresponses := congrArg State.responses (next_inj ((exec_plscEnc p s).symm.trans h))
  simpa using hresponses.symm

/-- Negated symbols are the symbols of inverted bits. -/
theorem dinAt_of_carries {s : State} {c : Params} {p : BitVec 7} {out : Symbols} {w : Window} {e : CodeWord} {k : Int}
    (hc : c = s.params) (hout : encodesTo s p out) (hw : carries w out e k) {i : Nat} (hi : i < 64) :
    dinAt w (i + 1) = mulJ k (mapsym c (seq64 (receivedWord c p e) i) i) := by
  rw [hw i hi, receivedWord, seq64_xor, mapsym_xor, mulJ_scale, out_of_encodesTo hout, hc]
  simp only [mapWord_getElem _ _ i hi]
  rfl

section Recovery

variable {s : State} {b : CodeWord}

/-- Slicing the symbols of a word gives the word. -/
theorem hardWord_coherent (hamp : 1 ≤ s.params.amp)
    (hw : ∀ i < 64, dinAt s.din (i + 1) = mapsym s.params (seq64 b i) i) : hardWord true s = b := by
  refine seq64_ext _ _ fun i hi => ?_
  have hword : seq64 (hardWord true s) i = hbit (demapCoh s.params s.din i) := seq64_word64 _ i hi
  rw [hword, demapCoh_of_mapsym (hw i hi), hbit_mul (softAmplitude_pos hamp), hbit_bipolar]

/-- The soft mode on the symbols of a word finds the value that hard decoding of the word finds. -/
theorem decodeFinds_coherentSoft (hamp : 1 ≤ s.params.amp)
    (hw : ∀ i < 64, dinAt s.din (i + 1) = mapsym s.params (seq64 b i) i) :
    decodeFinds true true s = ((dech64 s.params.layoutAdj (descrHard b)).1,
      softAmplitude s.params * (64 - 2 * (dech64 s.params.layoutAdj (descrHard b)).2)) := by
  refine decs64_of_signs _ (softAmplitude_pos hamp) fun i hi => ?_
  rw [descrSoft_eq, demapCoh_of_mapsym (hw i hi), descrHard, scramble, seq64_xor, bipolar_xor, mul_assoc]

/-- The differential demapper on the symbols of a word gives the word, or its complement behind an inverted
start-of-frame symbol. -/
theorem hardWord_differential {f : Bool} {k : Int} (hamp : 1 ≤ s.params.amp)
    (hw : HoldsFrame s.params s.din f b k) : hardWord false s = b ^^^ if f then 0xFFFFFFFFFFFFFFFF#64 else 0#64 := by
  refine seq64_ext _ _ fun i hi => ?_
  have hword : seq64 (hardWord false s) i = diffBit s.params s.din i := seq64_word64 _ i hi
  rw [hword, hw.diffBit hamp hi, seq64_xor]
  have hones : ∀ i < 64, seq64 0xFFFFFFFFFFFFFFFF#64 i = true := by decide
  cases f with
  | false => simp [seq64]
  | true => rw [if_pos rfl, hones i hi]

end Recovery

/-! ## Changes of the window that the differential demapper does not see -/

theorem diffBit_congr {c : Params} {w w' : Window} (h : ∀ i < 64, (diffIm w' i < 0 ↔ diffIm w i < 0)) {i : Nat}
    (hi : i < 64) : diffBit c w' i = diffBit c w i := by
  have hchange (i : Nat) (hi : i < 64) : diffChange c w' i = diffChange c w i := by
    rw [diffChange, diffChange, decide_eq_decide.mpr (h i hi)]
  induction i with
  | zero => rw [diffBit, diffBit, hchange 0 hi]
  | succ i ih => rw [diffBit, diffBit, hchange (i + 1) hi, ih (by omega)]

theorem demapDiff_congr {c : Params} {w w' : Window} (h : ∀ i < 64, (diffIm w' i < 0 ↔ diffIm w i < 0)) :
    demapDiff c w' = demapDiff c w :=
  word64_congr fun _ hi => diffBit_congr h hi

theorem diffIm_scale {w w' : Window} {a : Int} {i : Nat} (h : dinAt w' i = Sample.scale a (dinAt w i))
    (h' : dinAt w' (i + 1) = Sample.scale a (dinAt w (i + 1))) : diffIm w' i = a * a * diffIm w i := by
  change imMulConj (dinAt w' (i + 1)) (dinAt w' i) = a * a * imMulConj (dinAt w (i + 1)) (dinAt w i)
  rw [h, h', imMulConj_scale]

theorem diffIm_mulJ {w w' : Window} {k : Int} {i : Nat} (h : dinAt w' i = mulJ k (dinAt w i))
    (h' : dinAt w' (i + 1) = mulJ k (dinAt w (i + 1))) : diffIm w' i = diffIm w i := by
  change imMulConj (dinAt w' (i + 1)) (dinAt w' i) = imMulConj (dinAt w (i + 1)) (dinAt w i)
  rw [h, h', imMulConj_mulJ]

theorem hardWord_congr {c : Bool} {s s' : State} (hp : s'.params = s.params)
    (hcoh : c = true → ∀ i < 64, hbit (demapCoh s.params s'.din i) = hbit (demapCoh s.params s.din i))
    (hdiff : c = false → demapDiff s.params s'.din = demapDiff s.params s.din) : hardWord c s' = hardWord c s := by
  unfold hardWord
  rw [hp]
  cases c with
  | false => exact hdiff rfl
  | true => exact word64_congr (hcoh rfl)

/-- Multiplying the soft values by a positive integer multiplies the correlations. -/
theorem decs64_scale (adj : Bool) {v v' : Nat → Int} {a : Int} (ha : 0 < a) (h : ∀ i < 64, v' i = a * v i) :
    decs64 adj v' = ((decs64 adj v).1, a * (decs64 adj v).2) := by
  have hcorr (q : BitVec 7) : corr64 adj v' q = a * corr64 adj v q := by
    rw [corr64_congr adj h, corr64, corr64, sumTo_eq_sum, sumTo_eq_sum, Finset.mul_sum]
    exact Finset.sum_congr rfl fun i _ => mul_left_comm _ _ _
  have hbest : IsLeastMax (corr64 adj v') (decs64 adj v).1 :=
    (decs64_isLeastMax adj v).congr fun x y => by rw [hcorr, hcorr, mul_le_mul_iff_right₀ ha]
  rw [decs64_eq_of_isLeastMax hbest, hcorr, (decs64_spec adj v).1]

/-- What is found in a window multiplied by a positive integer: a hard mode sees the same signs, the soft mode the
same order of the correlations. -/
theorem decodeFinds_scale (c sft : Bool) {a : Int} {s s' : State} (ha : 0 < a) (hp : s'.params = s.params)
    (hw : ∀ i < 65, dinAt s'.din i = Sample.scale a (dinAt s.din i)) :
    decodeFinds c sft s' = ((decodeFinds c sft s).1, (if c && sft then a else 1) * (decodeFinds c sft s).2) := by
  have hcoh (i : Nat) (hi : i < 64) : demapCoh s.params s'.din i = a * demapCoh s.params s.din i :=
    demapCoh_scale _ (hw (i + 1) (by omega))
  cases hmode : c && sft with
  | false =>
    have hword : hardWord c s' = hardWord c s := by
      refine hardWord_congr hp (fun _ i hi => ?_) fun _ => demapDiff_congr fun i hi => ?_
      · rw [hcoh i hi, hbit_mul ha]
      · rw [diffIm_scale (hw i (by omega)) (hw (i + 1) (by omega)), mul_neg_iff_neg (mul_pos ha ha)]
    rw [decodeFinds_hard hmode, decodeFinds_hard hmode, hword, hp, if_neg Bool.false_ne_true, one_mul]
  | true =>
    obtain ⟨rfl, rfl⟩ := Bool.and_eq_true_iff.mp hmode
    rw [decodeFinds_soft, decodeFinds_soft, hp, if_pos rfl]
    exact decs64_scale _ ha fun i hi => by rw [descrSoft_eq, descrSoft_eq, hcoh i hi, mul_assoc]

/-! ## The obligations -/

/-- Settles O13: the codeword has the two copies at their places, and the symbols are those of the scrambled word. -/
theorem plscEncDrivesTheScrambledCodeword : Obligations.PlscEncDrivesTheScrambledCodeword := by
  unfold Obligations.PlscEncDrivesTheScrambledCodeword
  intro p s
  refine ⟨decode_plscEnc_word p, enc64 s.params.layoutAdj p, _, exec_plscEnc p s,
    fun j hj k hk => seq64_enc64_pos s.params.layoutAdj p hj hk, ?_, ?_, fun i hi => mapWord_getElem _ _ i hi⟩
  · rintro rfl
    exact enc64_zero _
  · rintro rfl
    rw [enc64_two]
    decide

/-- Settles O16: inverting a bit multiplies its symbol by -1. -/
theorem scramblingCommutesWithMapping : Obligations.ScramblingCommutesWithMapping := by
  unfold Obligations.ScramblingCommutesWithMapping
  intro c b x i
  rw [mapsym_xor]
  cases x <;> simp

/-- Settles O28: slicing gives the scrambled codeword with the marked bits inverted, which the outer code corrects. -/
theorem coherentHardDecodeRecoversTheValue : Obligations.CoherentHardDecodeRecoversTheValue := by
  unfold Obligations.CoherentHardDecodeRecoversTheValue
  intro s s' p out e hamp hp hout hw he
  have hword : hardWord true s' = receivedWord s'.params p e :=
    hardWord_coherent (hp ▸ hamp) fun i hi => dinAt_of_carries hp hout hw hi
  have hfinds : decodeFinds true false s' = (p, (popcount e : Int)) := by
    rw [decodeFinds_hard rfl, hword, descrHard_receivedWord, dech64_enc64_xor _ p he]
  exact ⟨_, exec_plscDec true false s', by simp [hfinds], by simp [hfinds]⟩

/-- Settles O29: the soft values are the signs of that word times one amplitude, so soft decoding selects the same
value. -/
theorem coherentSoftDecodeRecoversTheValue : Obligations.CoherentSoftDecodeRecoversTheValue := by
  unfold Obligations.CoherentSoftDecodeRecoversTheValue
  intro s s' p out e hamp hp hout hw he
  have hfinds : decodeFinds true true s' = (p, softAmplitude s'.params * (64 - 2 * (popcount e : Int))) := by
    rw [decodeFinds_coherentSoft (hp ▸ hamp) fun i hi => dinAt_of_carries hp hout hw hi, descrHard_receivedWord,
      dech64_enc64_xor _ p he]
  exact ⟨_, exec_plscDec true true s', by simp [hfinds], by simp [hfinds, softAmplitude, hp, mul_comm]⟩

/-- Settles O30: behind the start-of-frame reference the accumulated bits are those of the word. -/
theorem differentialDecodeRecoversTheValue : Obligations.DifferentialDecodeRecoversTheValue := by
  unfold Obligations.DifferentialDecodeRecoversTheValue
  intro sft s s' p out e k hamp hp hout hw hfirst he
  have hframe : HoldsFrame s'.params s'.din false (receivedWord s'.params p e) k :=
    ⟨by rw [hfirst, hp, sofRef], fun i hi => dinAt_of_carries hp hout hw hi⟩
  have hfinds : decodeFinds false sft s' = (p, (popcount e : Int)) := by
    rw [decodeFinds_hard (Bool.false_and sft), hardWord_differential (hp ▸ hamp) hframe, if_neg Bool.false_ne_true,
      BitVec.xor_zero, descrHard_receivedWord, dech64_enc64_xor _ p he]
  exact ⟨_, exec_plscDec false sft s', by simp [hfinds], by simp [hfinds]⟩

/-- Settles O31: behind the inverted reference every accumulated bit is inverted, which is the codeword of
`p ⊕ 2`. -/
theorem invertedStartOfFrameFlipsTheShortFlag : Obligations.InvertedStartOfFrameFlipsTheShortFlag := by
  unfold Obligations.InvertedStartOfFrameFlipsTheShortFlag
  intro sft s s' p out k hamp hp hout hw hfirst
  have hframe : HoldsFrame s'.params s'.din true (receivedWord s'.params p 0#64) k :=
    ⟨by rw [hfirst, hp, sofRef, mulJ_add_two_mapsym, Bool.not_false], fun i hi => dinAt_of_carries hp hout hw hi⟩
  have hfinds : decodeFinds false sft s' = (p ^^^ 2#7, 0) := by
    rw [decodeFinds_hard (Bool.false_and sft), hardWord_differential (hp ▸ hamp) hframe, if_pos rfl,
      receivedWord_zero_xor_allOnes, descrHard_receivedWord, dech64_enc64_xor _ _ (by simp), popcount_zero]
    rfl
  have hshort : (decoded false sft s').shortFecframe = shortOf (p ^^^ 2#7) := by
    rw [(decoded_holdsDerived false sft s').short, decoded_decPlsc, hfinds]
  exact ⟨_, exec_plscDec false sft s', by simp [hfinds], by simp [hfinds], hshort.trans (by simp [shortOf])⟩

/-- Settles O32: the value found is the same, and the metric and the soft values are multiplied in the soft mode. -/
theorem scalingTheWindowScalesSoftAndItsMetricOnly : Obligations.ScalingTheWindowScalesSoftAndItsMetricOnly := by
  unfold Obligations.ScalingTheWindowScalesSoftAndItsMetricOnly
  intro c sft a s s' ha hp hw factor
  have hfinds := decodeFinds_scale c sft ha hp hw
  refine ⟨_, _, _, exec_plscDec c sft s, exec_plscDec c sft s', ?_, ?_, ?_, decoded_responses c sft s, ?_⟩
  · rw [decoded_decMetric, decoded_decMetric, hfinds]
  · simp [sameArchState, decoded, hfinds]
  · intro hsoft i hi
    obtain ⟨rfl, rfl⟩ := Bool.and_eq_true_iff.mp hsoft
    have hcoh : demapCoh s'.params s'.din i = a * demapCoh s.params s.din i :=
      hp ▸ demapCoh_scale _ (hw (i + 1) (by omega))
    change softAt (descrambledSoft s') i = a * softAt (descrambledSoft s) i
    rw [softAt_descrambledSoft _ hi, softAt_descrambledSoft _ hi, descrSoft_eq, descrSoft_eq, hcoh, mul_assoc]
  · rw [decoded_responses, hfinds]

/-- Settles O33: the product of a sample and the conjugate of its neighbour does not change. -/
theorem quarterTurnsAreInvisibleToDifferentialDecoding :
    Obligations.QuarterTurnsAreInvisibleToDifferentialDecoding := by
  unfold Obligations.QuarterTurnsAreInvisibleToDifferentialDecoding
  intro sft k s s' hp hw
  have hword : hardWord false s' = hardWord false s := by
    refine hardWord_congr hp nofun fun _ => demapDiff_congr fun i hi => ?_
    rw [diffIm_mulJ (hw i (by omega)) (hw (i + 1) (by omega))]
  have hfinds : decodeFinds false sft s' = decodeFinds false sft s := by
    rw [decodeFinds_hard (Bool.false_and sft), decodeFinds_hard (Bool.false_and sft), hword, hp]
  exact ⟨_, _, exec_plscDec false sft s, exec_plscDec false sft s', sameArchState_decoded hfinds s.soft,
    responsePort_decoded hfinds⟩

/-- Settles O34: the coherent demapper reads entries 1 to 64. -/
theorem coherentDecodingIgnoresTheFirstSample : Obligations.CoherentDecodingIgnoresTheFirstSample := by
  unfold Obligations.CoherentDecodingIgnoresTheFirstSample
  intro sft s s' hp hw
  have hcoh (i : Nat) (hi : i < 64) : demapCoh s.params s'.din i = demapCoh s.params s.din i :=
    demapCoh_congr _ (hw i hi)
  have hfinds : decodeFinds true sft s' = decodeFinds true sft s := by
    cases sft with
    | false =>
      have hword : hardWord true s' = hardWord true s := hardWord_congr hp (fun _ i hi => by rw [hcoh i hi]) nofun
      rw [decodeFinds_hard rfl, decodeFinds_hard rfl, hp, hword]
    | true =>
      rw [decodeFinds_soft, decodeFinds_soft, hp]
      exact decs64_congr _ fun i hi => by rw [descrSoft_eq, descrSoft_eq, hcoh i hi]
  refine ⟨_, _, exec_plscDec true sft s, exec_plscDec true sft s', sameArchState_decoded hfinds s.soft, ?_,
    responsePort_decoded hfinds⟩
  rintro rfl
  rw [decoded_soft, decoded_soft]
  exact descrambledSoft_congr (hp ▸ hcoh)

end Sys2Proof.Machine
end

/-! # Ranges and the invariant (10_state.md sections 2, 3 and 6)

The magnitudes of samples, soft values, correlations and symbols, and the invariant that every step keeps. -/

section

namespace Sys2Proof.Machine

/-! ## Magnitudes (10_state.md R33) -/

theorem within_eq_true_iff (n : Nat) (x : Int) : within n x = true ↔ |x| ≤ 2 ^ n := by
  simp [within, abs_le]

theorem abs_le_of_fitsSigned {n : Nat} {x : Int} (h : fitsSigned n x = true) : |x| ≤ 2 ^ (n - 1) := by
  simp only [fitsSigned, Bool.and_eq_true, decide_eq_true_eq] at h
  exact abs_le.mpr ⟨h.1, h.2.le⟩

theorem fitsSigned_of_abs_lt {n : Nat} {x : Int} (h : |x| < 2 ^ (n - 1)) : fitsSigned n x = true := by
  obtain ⟨hlo, hhi⟩ := abs_lt.mp h
  simp [fitsSigned, hlo.le, hhi]

/-- The samples of a window that the port can carry. -/
theorem abs_dinAt_le {sw : Nat} {w : Window} (h : windowFits sw w = true) (i : Nat) :
    |(dinAt w i).i| ≤ 2 ^ (sw - 1) ∧ |(dinAt w i).q| ≤ 2 ^ (sw - 1) := by
  by_cases hi : i < 65
  · have hread : dinAt w i = w[i] := by simp [dinAt, hi]
    have hfits : (w[i]).fits sw = true := List.all_eq_true.mp h _ (by simp)
    rw [Sample.fits, Bool.and_eq_true] at hfits
    rw [hread]
    exact ⟨abs_le_of_fitsSigned hfits.1, abs_le_of_fitsSigned hfits.2⟩
  · simp [dinAt, hi]

/-- A soft value is one component of a sample, or a sum or difference of both. -/
theorem abs_softByTable_le {B : Int} {x : Sample} (hi : |x.i| ≤ B) (hq : |x.q| ≤ B) (c : Params) (k : Nat) :
    |softByTable c x k| ≤ 2 * B := by
  rw [abs_le] at *
  unfold softByTable
  split <;> omega

/-- The soft values of such a window lie in `-2^SW` to `2^SW`. -/
theorem abs_demapCoh_le {c : Params} {w : Window} (hsw : 1 ≤ c.sw) (h : windowFits c.sw w = true) (i : Nat) :
    |demapCoh c w i| ≤ 2 ^ c.sw := by
  obtain ⟨hi, hq⟩ := abs_dinAt_le h (i + 1)
  rw [demapCoh_eq_softByTable]
  calc |softByTable c (dinAt w (i + 1)) i|
      ≤ 2 * 2 ^ (c.sw - 1) := abs_softByTable_le hi hq c i
    _ = 2 ^ c.sw := mul_pow_sub_one (by omega) 2

theorem abs_mul_bipolar (v : Int) (b : Bool) : |v * bipolar b| = |v| := by
  cases b <;> simp

theorem abs_descrSoft (v : Nat → Int) (i : Nat) : |descrSoft v i| = |v i| := by
  rw [descrSoft_eq, abs_mul_bipolar]

/-- A correlation is no greater than the sum of the magnitudes of its values. -/
theorem abs_sum_bipolar_mul_le {n : Nat} {v : Nat → Int} {B : Int} (f : Nat → Bool) (h : ∀ i < n, |v i| ≤ B) :
    |sumTo (fun i => bipolar (f i) * v i) n| ≤ n * B := by
  rw [sumTo_eq_sum]
  calc |∑ i ∈ Finset.range n, bipolar (f i) * v i|
      ≤ ∑ i ∈ Finset.range n, |bipolar (f i) * v i| := Finset.abs_sum_le_sum_abs _ _
    _ ≤ ∑ _i ∈ Finset.range n, B := Finset.sum_le_sum fun i hi => by
      rw [mul_comm, abs_mul_bipolar]
      exact h i (Finset.mem_range.mp hi)
    _ = n * B := by simp

/-- The metric of `RM32.DECS` on a window that the port can carry. -/
theorem abs_decs32_le {sw : Nat} {w : Window} (h : windowFits sw w = true) :
    |(decs32 (innerSoft w)).2| ≤ 2 ^ (sw + 6) := by
  rw [(decs32_spec _).1]
  calc |corr32 (innerSoft w) (decs32 (innerSoft w)).1|
      ≤ 32 * 2 ^ (sw - 1) := abs_sum_bipolar_mul_le _ fun i _ => (abs_dinAt_le h i).1
    _ = 2 ^ (sw - 1 + 5) := by rw [pow_add]; ring
    _ ≤ 2 ^ (sw + 6) := pow_le_pow_right₀ (by decide) (by omega)

theorem dech32_mem_Icc (w : InnerWord) : (dech32 w).2 ∈ Set.Icc 0 32 := by
  rw [(dech32_spec w).1]
  exact ⟨Int.natCast_nonneg _, Int.ofNat_le.mpr (popcount_le _)⟩

/-- The metric of a hard mode is a distance. -/
theorem decodeFinds_hard_mem_Icc {c sft : Bool} (hmode : (c && sft) = false) (s : State) :
    (decodeFinds c sft s).2 ∈ Set.Icc 0 64 := by
  rw [decodeFinds_hard hmode, (dech64_spec _ _).1]
  exact ⟨Int.natCast_nonneg _, Int.ofNat_le.mpr (popcount_le _)⟩

/-- The metric of the soft mode is a sum of 64 soft values with signs. -/
theorem abs_decodeFinds_soft_le {s : State} (hsw : 1 ≤ s.params.sw) (h : windowFits s.params.sw s.din = true) :
    |(decodeFinds true true s).2| ≤ 2 ^ (s.params.sw + 6) := by
  rw [decodeFinds_soft, (decs64_spec _ _).1]
  refine (abs_sum_bipolar_mul_le _ fun i _ => ?_).trans (?_ : 64 * 2 ^ s.params.sw ≤ (2 : Int) ^ (s.params.sw + 6))
  · rw [abs_descrSoft]
    exact abs_demapCoh_le hsw h i
  · rw [pow_add, mul_comm]
    rfl

/-- The metric every `PLSC.DEC` finds is legal for its mode (10_state.md R24). -/
theorem metricLegal_decodeFinds (c sft : Bool) {s : State} (hsw : 1 ≤ s.params.sw)
    (h : windowFits s.params.sw s.din = true) :
    metricLegal s.params (c && sft) (decodeFinds c sft s).2 = true := by
  cases hmode : c && sft with
  | false => simpa [metricLegal] using decodeFinds_hard_mem_Icc hmode s
  | true =>
    obtain ⟨rfl, rfl⟩ := Bool.and_eq_true_iff.mp hmode
    rw [metricLegal, if_pos rfl, within_eq_true_iff]
    exact abs_decodeFinds_soft_le hsw h

/-- A legal metric of either mode fits the response's field. -/
theorem within_of_metricLegal {c : Params} {soft : Bool} {m : Int} (h : metricLegal c soft m = true) :
    within (c.sw + 6) m = true := by
  cases soft with
  | true => exact h
  | false =>
    simp only [metricLegal, Bool.false_eq_true, if_false, Bool.and_eq_true, decide_eq_true_eq] at h
    rw [within_eq_true_iff, abs_of_nonneg h.1]
    calc m ≤ 2 ^ 6 := h.2
      _ ≤ 2 ^ (c.sw + 6) := pow_le_pow_right₀ (by decide) (by omega)

/-- The components of a symbol are 0 or the amplitude with a sign (41_plsc_encoder.md R114). -/
theorem abs_mapsym_le (c : Params) (b : Bool) (i : Int) :
    |(mapsym c b i).i| ≤ c.amp ∧ |(mapsym c b i).q| ≤ c.amp := by
  rw [mapsym_eq_symbolByTable]
  unfold symbolByTable
  split <;> simp

/-- With legal parameters the symbols fit the port `DOUT`. -/
theorem symbolsFit_mapWord {c : Params} (h : c.legal = true) (w : CodeWord) : symbolsFit c.sw (mapWord c w) = true := by
  simp only [Params.legal, Bool.and_eq_true, decide_eq_true_eq] at h
  have hamp : (c.amp : Int) < 2 ^ (c.sw - 1) := by
    have hpos : 0 < 2 ^ (c.sw - 1) := Nat.two_pow_pos _
    exact_mod_cast (by omega : c.amp < 2 ^ (c.sw - 1))
  refine List.all_eq_true.mpr fun x hx => ?_
  obtain ⟨i, rfl⟩ : ∃ i : Fin 64, mapsym c (seq64 w i.val) (i.val : Int) = x := by
    simpa [mapWord, Vector.mem_toList_iff] using hx
  obtain ⟨hi, hq⟩ := abs_mapsym_le c (seq64 w i.val) (i.val : Int)
  rw [Sample.fits, fitsSigned_of_abs_lt (hi.trans_lt hamp), fitsSigned_of_abs_lt (hq.trans_lt hamp), Bool.and_self]

/-! ## The invariant, clause by clause -/

/-- The clauses of `State.inv`. -/
structure Inv (s : State) : Prop where
  params : s.params.legal = true
  din : windowFits s.params.sw s.din = true
  soft : s.softLegal = true
  results : s.decValid = true → s.resultsLegal = true
  responses : ∀ r ∈ s.responses, r.legal s.params = true

theorem inv_eq_true_iff (s : State) : s.inv = true ↔ Inv s := by
  have hvalid : (!s.decValid || s.resultsLegal) = true ↔ (s.decValid = true → s.resultsLegal = true) := by
    cases s.decValid <;> simp
  rw [State.inv, Bool.and_eq_true, Bool.and_eq_true, Bool.and_eq_true, Bool.and_eq_true, hvalid, List.all_eq_true]
  exact ⟨fun ⟨⟨⟨⟨hp, hd⟩, hs⟩, hv⟩, hr⟩ => ⟨hp, hd, hs, hv, hr⟩, fun ⟨hp, hd, hs, hv, hr⟩ => ⟨⟨⟨⟨hp, hd⟩, hs⟩, hv⟩, hr⟩⟩

/-- The result registers are legal exactly when they hold the derivation of the value and a legal metric. -/
theorem resultsLegal_of_holdsDerived {s : State} (h : HoldsDerived s)
    (hm : metricLegal s.params s.decEffSoft s.decMetric = true) : s.resultsLegal = true := by
  simp [State.resultsLegal, deriveParams, h.modcod, h.short, h.pilots, h.dummy, h.nMod, h.slots, h.nPilots,
    h.plframeLen, hm]

theorem legal_ok_none (c : Params) (v : BitVec 32) {m : Int} (h : within (c.sw + 6) m = true) :
    Response.legal c ⟨.ok, v, m, none⟩ = true := by
  rw [Response.legal, h, Bool.and_self]

theorem legal_ok_some {c : Params} (v : BitVec 32) {d : Symbols} (h : symbolsFit c.sw d = true) :
    Response.legal c ⟨.ok, v, 0, some d⟩ = true := by
  have hzero : within (c.sw + 6) 0 = true := by simp [within_eq_true_iff]
  simp [Response.legal, hzero, h]

/-- An error report carries nothing (60_exceptions.md R187). -/
theorem legal_report (c : Params) {st : Status} (h : st ≠ .ok) : Response.legal c ⟨st, 0, 0, none⟩ = true := by
  cases st with
  | ok => exact absurd rfl h
  | invalidCfg => rfl
  | illegalCmd => rfl

/-- A scratch buffer written out by a function, as the invariant tests it. -/
theorem all_within_ofFn {n : Nat} {u : Nat → Int} (h : ∀ i, |u i| ≤ 2 ^ n) :
    (Vector.ofFn fun i : Fin 64 => u i.val).toList.all (within n) = true := by
  refine List.all_eq_true.mpr fun x hx => ?_
  obtain ⟨i, rfl⟩ : ∃ i : Fin 64, u i.val = x := by simpa [Vector.mem_toList_iff] using hx
  exact (within_eq_true_iff n _).mpr (h i.val)

/-- Right after reset, with any legal parameters. -/
theorem inv_of_initial {s : State} (hp : s.params.legal = true) (hd : s.din = State.reset.din)
    (hs : s.soft = State.reset.soft) (hv : s.decValid = false) (hr : s.responses = []) : Inv s where
  params := hp
  din := by
    refine List.all_eq_true.mpr fun x hx => ?_
    obtain rfl : (⟨0, 0⟩ : Sample) = x := by simpa [hd, State.reset, zeroWindow] using hx
    rw [Sample.fits, fitsSigned_of_abs_lt (by simp), Bool.and_self]
  soft := by
    rw [State.softLegal, hs]
    exact all_within_ofFn (u := fun _ => 0) fun i => by simp
  results := by simp [hv]
  responses := by simp [hr]

section Kept

variable {s : State}

theorem Inv.sw_pos (h : Inv s) : 1 ≤ s.params.sw := by
  have hlegal := h.params
  simp only [Params.legal, Bool.and_eq_true, decide_eq_true_eq] at hlegal
  omega

theorem Inv.afterAccept (h : Inv s) {din : Window} (hfits : windowFits s.params.sw din = true) (rest : List HostEvent) :
    Inv (accept din rest s) :=
  ⟨h.params, hfits, h.soft, h.results, h.responses⟩

theorem Inv.afterRespond (h : Inv s) {r : Response} (hr : r.legal s.params = true) : Inv (respond r s) where
  params := h.params
  din := h.din
  soft := h.soft
  results := h.results
  responses q hq := by
    rcases List.mem_append.mp hq with hq | hq
    · exact h.responses q hq
    · rwa [List.mem_singleton.mp hq]

/-- The five commands that write no register answer a legal response. -/
theorem Inv.exec_eq_respond_legal (h : Inv s) {i : Instr} (hi : ∀ c sft, i ≠ .plscDec c sft) :
    ∃ r : Response, exec i s = .next (respond r s) ∧ r.legal s.params = true := by
  have hencode (p : BitVec 7) := legal_ok_some (p.setWidth 32) (symbolsFit_mapWord h.params
    (scramble (enc64 s.params.layoutAdj p)))
  cases i with
  | rm32Enc d => exact ⟨_, exec_rm32Enc d s, legal_ok_none _ _ (m := 0) (by simp [within_eq_true_iff])⟩
  | rm32Dech w =>
    obtain ⟨hlo, hhi⟩ := dech32_mem_Icc w
    have hlegal : metricLegal s.params false (dech32 w).2 = true := by
      simp only [metricLegal, Bool.false_eq_true, if_false, Bool.and_eq_true, decide_eq_true_eq]
      omega
    exact ⟨_, exec_rm32Dech w s, legal_ok_none _ _ (within_of_metricLegal hlegal)⟩
  | rm32Decs =>
    exact ⟨_, exec_rm32Decs s, legal_ok_none _ _ ((within_eq_true_iff _ _).mpr (abs_decs32_le h.din))⟩
  | plscEnc p => exact ⟨_, exec_plscEnc p s, hencode p⟩
  | plscEncp modcod short pilots =>
    by_cases htriple : refusedTriple modcod short
    · exact ⟨_, exec_plscEncp_of_refused htriple pilots s, legal_report _ (by decide)⟩
    · exact ⟨_, (exec_plscEncp_of_accepted htriple pilots s).trans (exec_plscEnc _ s), hencode _⟩
  | plscDec c sft => exact absurd rfl (hi c sft)

/-- `PLSC.DEC` keeps the invariant: it writes legal soft values, the derivation of its value, and a legal metric. -/
theorem Inv.afterDecode (h : Inv s) (c sft : Bool) : Inv (decoded c sft s) where
  params := by rw [decoded_params]; exact h.params
  din := by simpa [decoded] using h.din
  soft := by
    rw [State.softLegal, decoded_soft, decoded_params, softAfter]
    split_ifs with hmode
    · exact all_within_ofFn fun i => (abs_descrSoft _ i).trans_le (abs_demapCoh_le h.sw_pos h.din i)
    · exact h.soft
  results _ := by
    refine resultsLegal_of_holdsDerived (decoded_holdsDerived c sft s) ?_
    rw [decoded_params, decoded_decEffSoft, decoded_decMetric]
    exact metricLegal_decodeFinds c sft h.sw_pos h.din
  responses r hr := by
    rw [decoded_params]
    rw [decoded_responses] at hr
    rcases List.mem_append.mp hr with hr | hr
    · exact h.responses r hr
    · rw [List.mem_singleton.mp hr]
      exact legal_ok_none _ _ (within_of_metricLegal (metricLegal_decodeFinds c sft h.sw_pos h.din))

/-- Every command keeps the invariant. -/
theorem Inv.afterExec (h : Inv s) {i : Instr} {t : State} (hexec : exec i s = .next t) : Inv t := by
  by_cases hi : ∃ c sft, i = .plscDec c sft
  · obtain ⟨c, sft, rfl⟩ := hi
    obtain rfl := next_inj ((exec_plscDec c sft s).symm.trans hexec)
    exact h.afterDecode c sft
  · obtain ⟨r, hr, hlegal⟩ := h.exec_eq_respond_legal fun c sft hdec => hi ⟨c, sft, hdec⟩
    obtain rfl := next_inj (hr.symm.trans hexec)
    exact h.afterRespond hlegal

end Kept

/-! ## The obligations -/

/-- Settles O51: one case for each thing a step can do. -/
theorem everyStepKeepsTheInvariant : Obligations.EveryStepKeepsTheInvariant := by
  unfold Obligations.EveryStepKeepsTheInvariant
  intro s t hinv hstep
  rw [inv_eq_true_iff] at hinv ⊢
  rcases step_cases hstep with
    ⟨-, rfl⟩ | ⟨rest, -, rfl⟩ | ⟨cw, din, rest, -, hfits, ⟨i, -, hexec⟩ | ⟨e, -, rfl⟩⟩
  · exact hinv
  · exact inv_of_initial hinv.params rfl rfl rfl rfl
  · exact (hinv.afterAccept hfits rest).afterExec hexec
  · exact (hinv.afterAccept hfits rest).afterRespond (legal_report _ (by decide))

/-- Settles O50: the default parameters are legal, and a reset state holds zeros and no response. -/
theorem theInvariantHoldsAtReset : Obligations.TheInvariantHoldsAtReset :=
  (inv_eq_true_iff _).mpr (inv_of_initial (by decide) rfl rfl rfl rfl)

/-- Settles O27: the metric found is legal for its mode, and the response carries what was found. -/
theorem decodeMetricStaysInItsRange : Obligations.DecodeMetricStaysInItsRange := by
  unfold Obligations.DecodeMetricStaysInItsRange
  intro c sft s hsw hfits
  refine ⟨_, exec_plscDec c sft s, fun hmode => ?_, fun hmode => ?_, _, decoded_responsePort c sft s, ?_, ?_⟩
  · rw [decoded_decMetric]
    exact decodeFinds_hard_mem_Icc hmode s
  · obtain ⟨rfl, rfl⟩ := Bool.and_eq_true_iff.mp hmode
    rw [decoded_decMetric]
    exact abs_le.mp (abs_decodeFinds_soft_le (by omega) hfits)
  · rw [decoded_decMetric]
  · rw [decoded_decPlsc, zext32]

end Sys2Proof.Machine
end
